-- ==== Sys2Proof/Word.lean ====
section
/-! DEFINITION. The word types of the CSC engine: 8-bit bytes, 32-bit words and 32-bit byte addresses (spec 20_memory.md R60). -/

namespace Sys2Proof

/-- One byte of memory, one luma or chroma sample (R60, R64). -/
abbrev Byte := BitVec 8

/-- A 32-bit register (10_state.md R24). -/
abbrev Word := BitVec 32

/-- A byte address; arithmetic on it is modulo 2^32 (20_memory.md R60, R62). -/
abbrev Addr := BitVec 32

end Sys2Proof
end

