-- ==== Sys2Proof/Config.lean ====
section
/-! DEFINITION. What an implementation or its platform fixes: the colour coefficients (00_scope.md R8), the regions of plain memory (20_memory.md R78), and the free value of the `ovl_*` bundle while no request stands (10_state.md R35). -/

namespace Sys2Proof

/-- A run of byte addresses `base .. base + size - 1`, modulo 2^32. -/
structure Region where
  base : Addr
  size : Nat
  deriving DecidableEq, Repr

/-- The parameters of the hardware and its platform, fixed for its life: no step changes them.
`coeff1` to `coeff4` are the signed 16-bit constants COEFF1 to COEFF4 of R8; `plainMemory` lists the regions
the platform backs with plain memory (R67, R78; premises BuffersOwned and PlainMemory of 70 R247). -/
structure Config where
  coeff1 : BitVec 16
  coeff2 : BitVec 16
  coeff3 : BitVec 16
  coeff4 : BitVec 16
  plainMemory : List Region
  deriving DecidableEq, Repr

/-- The default parameters. PRESUMED (unsafe): the four coefficients are R9's "from general knowledge, not in
source" (notes/assumptions/5.md). DESIGN CHOICE (unsafe): the platform backs the whole address space
(notes/assumptions/8.md). -/
def Config.default : Config where
  coeff1 := BitVec.ofInt 16 13073
  coeff2 := BitVec.ofInt 16 (-3207)
  coeff3 := BitVec.ofInt 16 (-6664)
  coeff4 := BitVec.ofInt 16 16530
  plainMemory := [⟨0, 4294967296⟩]

/-- The `ovl_*` outputs of 10_state.md R35. -/
structure OvlBundle where
  fmt : BitVec 3
  dst0Base : Word
  dst1Base : Word
  dst2Base : Word
  dst0Stride : Word
  dst1Stride : Word
  dst2Stride : Word
  width : Word
  height : Word
  deriving DecidableEq, Repr, Inhabited

/-- Free value: what the `ovl_*` bundle shows while `ovl_req` = 0, "unspecified otherwise" (10_state.md R35,
93 U13). Applied to the state's step counter, so each step may show another value (notes/assumptions/6.md; safe). -/
opaque Config.freeOvl : Nat → OvlBundle

end Sys2Proof
end

