-- ==== Sys2Proof/Syntax.lean ====
section
/-! DEFINITION. The commands of the engine: one constructor per row of spec/opcode_table.json (30_encoding.md R90 to R99), and commands as the assembler writes them (R102). -/

namespace Sys2Proof

/-- A decoded command word. A constructor carries exactly the modifier bits its row reads (30_encoding.md R90,
R98, R99 c): ORDER (true is B-first, R95), SHARE and ERR (R96). Bits a row ignores are not part of the command;
they stay readable in register CMD. -/
inductive Instr where
  | convertP420 (order share err : Bool)
  | convertSpab (order share err : Bool)
  | convertSpba (order share err : Bool)
  | convertRgb565 (order share err : Bool)
  | convertRgb8888 (order share err : Bool)
  | pcopy
  | deint (order : Bool)
  | swap
  | rgb565 (order : Bool)
  | rgb8888 (order : Bool)
  | convertReserved5 (order share err : Bool)
  | convertReserved6 (order share err : Bool)
  | convertReserved7 (order share err : Bool)
  | reservedOp6
  | reservedOp7
  | reservedOp8
  | reservedOp9
  | reservedOp10
  | reservedOp11
  | reservedOp12
  | reservedOp13
  | reservedOp14
  | reservedOp15
  deriving DecidableEq, Repr

/-- A modifier as the assembler writes it: present or absent (30_encoding.md R102). -/
def Instr.modifier (on : Bool) (name : String) : String := if on then " " ++ name else ""

/-- The modifiers ` BF`, ` SHARE`, ` ERR` in the order of R102. -/
def Instr.modifiers (order share err : Bool) : String :=
  Instr.modifier order "BF" ++ Instr.modifier share "SHARE" ++ Instr.modifier err "ERR"

/-- The ten mnemonics of the assembler (30_encoding.md R102). -/
inductive Mnemonic where
  | convertP420 | convertSpab | convertSpba | convertRgb565 | convertRgb8888
  | pcopy | deint | swap | rgb565 | rgb8888
  deriving DecidableEq, Repr

/-- A mnemonic as it is written (R102). -/
def Mnemonic.text : Mnemonic → String
  | .convertP420 => "CONVERT.P420"
  | .convertSpab => "CONVERT.SPAB"
  | .convertSpba => "CONVERT.SPBA"
  | .convertRgb565 => "CONVERT.RGB565"
  | .convertRgb8888 => "CONVERT.RGB8888"
  | .pcopy => "PCOPY"
  | .deint => "DEINT"
  | .swap => "SWAP"
  | .rgb565 => "RGB565"
  | .rgb8888 => "RGB8888"

/-- A command as the assembler has it, `MNEMONIC [BF] [SHARE] [ERR]`: every mnemonic takes every modifier, also one
the command ignores (R102, R99 c). -/
structure Command where
  mnemonic : Mnemonic
  bf : Bool
  share : Bool
  err : Bool
  deriving DecidableEq, Repr

/-- A command as it is written (R102). -/
def Command.text (c : Command) : String := c.mnemonic.text ++ Instr.modifiers c.bf c.share c.err

/-- What a written command means: its modifiers that the command reads, the others dropped (R98, R99 c). -/
def Command.instr (c : Command) : Instr :=
  match c.mnemonic with
  | .convertP420 => .convertP420 c.bf c.share c.err
  | .convertSpab => .convertSpab c.bf c.share c.err
  | .convertSpba => .convertSpba c.bf c.share c.err
  | .convertRgb565 => .convertRgb565 c.bf c.share c.err
  | .convertRgb8888 => .convertRgb8888 c.bf c.share c.err
  | .pcopy => .pcopy
  | .deint => .deint c.bf
  | .swap => .swap
  | .rgb565 => .rgb565 c.bf
  | .rgb8888 => .rgb8888 c.bf

/-- The shortest way to write a command, without modifiers it ignores; the reserved rows have none (R102). -/
def Instr.written : Instr → Option Command
  | .convertP420 o s e => some ⟨.convertP420, o, s, e⟩
  | .convertSpab o s e => some ⟨.convertSpab, o, s, e⟩
  | .convertSpba o s e => some ⟨.convertSpba, o, s, e⟩
  | .convertRgb565 o s e => some ⟨.convertRgb565, o, s, e⟩
  | .convertRgb8888 o s e => some ⟨.convertRgb8888, o, s, e⟩
  | .pcopy => some ⟨.pcopy, false, false, false⟩
  | .deint o => some ⟨.deint, o, false, false⟩
  | .swap => some ⟨.swap, false, false, false⟩
  | .rgb565 o => some ⟨.rgb565, o, false, false⟩
  | .rgb8888 o => some ⟨.rgb8888, o, false, false⟩
  | .convertReserved5 _ _ _ => none
  | .convertReserved6 _ _ _ => none
  | .convertReserved7 _ _ _ => none
  | .reservedOp6 => none
  | .reservedOp7 => none
  | .reservedOp8 => none
  | .reservedOp9 => none
  | .reservedOp10 => none
  | .reservedOp11 => none
  | .reservedOp12 => none
  | .reservedOp13 => none
  | .reservedOp14 => none
  | .reservedOp15 => none

/-- The shortest assembler text of a command (R102). -/
def Instr.asm (i : Instr) : Option String := i.written.map Command.text

end Sys2Proof
end

