-- ==== Sys2Proof/Machine/Agents.lean ====
section
/-! DEFINITION. The other agents: the register map the HOST sees (10_state.md R24), what each agent can do to the engine (R20, 70 R246), and the statements of a host program (30_encoding.md R103). -/

namespace Sys2Proof.Machine

/-- The seventeen registers of 10_state.md R24. -/
inductive Reg where
  | ctrl | status | cmd
  | srcYBase | srcYStride | srcCBase | srcCStride
  | dst0Base | dst0Stride | dst1Base | dst1Stride | dst2Base | dst2Stride
  | width | height | startRow | rowCount
  deriving DecidableEq, Repr

/-- Byte offset of a register from the base of the register interface (R24). -/
def Reg.offset : Reg → Nat
  | .ctrl => 0x00
  | .status => 0x04
  | .cmd => 0x08
  | .srcYBase => 0x0C
  | .srcYStride => 0x10
  | .srcCBase => 0x14
  | .srcCStride => 0x18
  | .dst0Base => 0x1C
  | .dst0Stride => 0x20
  | .dst1Base => 0x24
  | .dst1Stride => 0x28
  | .dst2Base => 0x2C
  | .dst2Stride => 0x30
  | .width => 0x34
  | .height => 0x38
  | .startRow => 0x3C
  | .rowCount => 0x40

/-- The register at an offset, if there is one; offsets outside R24 hold no state (R44). -/
def Reg.ofOffset : Nat → Option Reg
  | 0x00 => some .ctrl
  | 0x04 => some .status
  | 0x08 => some .cmd
  | 0x0C => some .srcYBase
  | 0x10 => some .srcYStride
  | 0x14 => some .srcCBase
  | 0x18 => some .srcCStride
  | 0x1C => some .dst0Base
  | 0x20 => some .dst0Stride
  | 0x24 => some .dst1Base
  | 0x28 => some .dst1Stride
  | 0x2C => some .dst2Base
  | 0x30 => some .dst2Stride
  | 0x34 => some .width
  | 0x38 => some .height
  | 0x3C => some .startRow
  | 0x40 => some .rowCount
  | _ => none

/-- Who makes a memory access that is not the ENGINE's (R20); `otherEngine` is another instance of the engine,
which shares nothing but memory with this one (60 R217). -/
inductive Agent where
  | host | overlay | decoder | otherEngine
  deriving DecidableEq, Repr

/-- One action between the steps of the engine. The list `State.env` holds the coming ones in the one order in
which memory and the register interface see them (20 R72, R79). -/
inductive Event where
  /-- HOST register access of `size` bytes at byte offset `off`: a write of the value, or a read (R25). -/
  | reg (size off : Nat) (data : Option Word)
  /-- Memory access of one byte by another agent: a write of the value, or a read (20 R79, 60 R213). -/
  | mem (who : Agent) (a : Addr) (data : Option Byte)
  /-- OVERLAY drives input `ovl_ack` to a level (R35). -/
  | ovlAck (level : Bool)
  /-- Input `reset` is driven to a level (R35, 70 R230). -/
  | reset (level : Bool)
  /-- The ENGINE takes one engine step: one byte access or one phase change (R20, R37). -/
  | engine
  /-- The HOST's `WAIT`: read STATUS until DONE is 1 (30 R103). -/
  | wait
  /-- The `ACK` of a test program: when `ovl_req` is 1 the OVERLAY writes the bytes of its draw and raises
  `ovl_ack` (30 R103, 60 R212, R213). -/
  | ack (draw : List (Addr × Byte))
  deriving DecidableEq, Repr

/-- Statements of a host program, with the pseudo statements (30_encoding.md R103). `ack` carries the bytes
the OVERLAY agent writes before it acknowledges: none "unless the program says what it writes". -/
inductive HostStmt where
  | wr (r : Reg) (v : Word)
  | rd (r : Reg)
  | go
  | cmd (c : Command)
  | srcY (b s : Word)
  | srcC (b s : Word)
  | dst0 (b s : Word)
  | dst1 (b s : Word)
  | dst2 (b s : Word)
  | dim (w h : Word)
  | win (s n : Word)
  | wait
  | ack (draw : List (Addr × Byte))
  deriving DecidableEq, Repr

end Sys2Proof.Machine
end

