-- ==== Sys2Proof/WellFormed.lean ====
section
/-! DEFINITION. Well-formedness: of a command (every term of `Instr` has an encoding), of a host action (10_state.md R25) and of a region of the platform's memory map. -/

namespace Sys2Proof

/-- Every field of a command is one modifier bit (30_encoding.md R90, R91), so no command is ill formed. -/
def Instr.wf : Instr → Bool
  | .convertP420 _ _ _ | .convertSpab _ _ _ | .convertSpba _ _ _ | .convertRgb565 _ _ _ | .convertRgb8888 _ _ _ => true
  | .pcopy | .deint _ | .swap | .rgb565 _ | .rgb8888 _ => true
  | .convertReserved5 _ _ _ | .convertReserved6 _ _ _ | .convertReserved7 _ _ _ => true
  | .reservedOp6 | .reservedOp7 | .reservedOp8 | .reservedOp9 | .reservedOp10 => true
  | .reservedOp11 | .reservedOp12 | .reservedOp13 | .reservedOp14 | .reservedOp15 => true

/-- A register access inside the spec: 32 bits wide, at a multiple of 4 (R25). -/
def Machine.Event.wf : Machine.Event → Bool
  | .reg size off _ => size == 4 && off % 4 == 0
  | .mem _ _ _ | .ovlAck _ | .reset _ | .engine | .wait | .ack _ => true

/-- A region lies in the 2^32 bytes of memory and is not empty (20_memory.md R60). -/
def Region.wf (r : Region) : Bool := decide (0 < r.size) && decide (r.size ≤ 2 ^ 32)

end Sys2Proof
end

