-- ==== Sys2Proof/Decode.lean ====
section
/-! DEFINITION. Decoding of the 32-bit command word (30_encoding.md R90 to R99, R105), then the encoder written from the same table, and the table's match and mask values. -/

namespace Sys2Proof

/-- Why bits are no command: not the one instruction length, 32 bits (30_encoding.md R90, R101). -/
inductive DecodeReject where
  | longerThanOneWord (nbits : Nat)
  deriving DecidableEq, Repr

/-- The fields of a command word (R90). -/
def cmdOp (w : Word) : BitVec 4 := w.extractLsb' 0 4
def cmdFmt (w : Word) : BitVec 3 := w.extractLsb' 4 3
def cmdOrder (w : Word) : Bool := w.getLsbD 7
def cmdShare (w : Word) : Bool := w.getLsbD 8
def cmdErr (w : Word) : Bool := w.getLsbD 9

/-- OP = 0: FMT selects the conversion (R92, R94, R99 b). -/
def decodeConvert (fmt : BitVec 3) (order share err : Bool) : Instr :=
  match fmt.toNat with
  | 0 => .convertP420 order share err
  | 1 => .convertSpab order share err
  | 2 => .convertSpba order share err
  | 3 => .convertRgb565 order share err
  | 4 => .convertRgb8888 order share err
  | 5 => .convertReserved5 order share err
  | 6 => .convertReserved6 order share err
  | _ => .convertReserved7 order share err

/-- Decode is total: every command word has exactly one meaning (R105). OP first, then FMT when OP = 0 (R90). -/
def decode (w : Word) : Instr :=
  match (cmdOp w).toNat with
  | 0 => decodeConvert (cmdFmt w) (cmdOrder w) (cmdShare w) (cmdErr w)
  | 1 => .pcopy
  | 2 => .deint (cmdOrder w)
  | 3 => .swap
  | 4 => .rgb565 (cmdOrder w)
  | 5 => .rgb8888 (cmdOrder w)
  | 6 => .reservedOp6
  | 7 => .reservedOp7
  | 8 => .reservedOp8
  | 9 => .reservedOp9
  | 10 => .reservedOp10
  | 11 => .reservedOp11
  | 12 => .reservedOp12
  | 13 => .reservedOp13
  | 14 => .reservedOp14
  | _ => .reservedOp15

/-- The decoder on any run of bits: bits above `nbits` up to the word's 32 are 0; more than one word is rejected. -/
def decodeBits (nbits w : Nat) : Except DecodeReject Instr :=
  if nbits ≤ 32 then .ok (decode (BitVec.ofNat 32 (w % 2 ^ nbits))) else .error (.longerThanOneWord nbits)

/-- What the decoder reads from a row of spec/opcode_table.json whose bits are `w`. The command word is a
register value, not bytes of memory (10_state.md R22, R27), so its bits are taken as the table numbers them. -/
def decodeTableWord (nbits w : Nat) : Option Instr :=
  match decodeBits nbits w with
  | .ok i => some i
  | .error _ => none

/-- Encoding `OP | FMT << 4 | ORDER << 7 | SHARE << 8 | ERR << 9` (R102). -/
def encodeFields (op fmt : Word) (order share err : Bool) : Word :=
  op ||| fmt <<< 4 ||| (BitVec.ofBool order).setWidth 32 <<< 7 ||| (BitVec.ofBool share).setWidth 32 <<< 8 |||
    (BitVec.ofBool err).setWidth 32 <<< 9

/-- The word of a command, ignored bits 0 (R93, R94). -/
def encode : Instr → Word
  | .convertP420 o s e => encodeFields 0 0 o s e
  | .convertSpab o s e => encodeFields 0 1 o s e
  | .convertSpba o s e => encodeFields 0 2 o s e
  | .convertRgb565 o s e => encodeFields 0 3 o s e
  | .convertRgb8888 o s e => encodeFields 0 4 o s e
  | .pcopy => encodeFields 1 0 false false false
  | .deint o => encodeFields 2 0 o false false
  | .swap => encodeFields 3 0 false false false
  | .rgb565 o => encodeFields 4 0 o false false
  | .rgb8888 o => encodeFields 5 0 o false false
  | .convertReserved5 o s e => encodeFields 0 5 o s e
  | .convertReserved6 o s e => encodeFields 0 6 o s e
  | .convertReserved7 o s e => encodeFields 0 7 o s e
  | .reservedOp6 => encodeFields 6 0 false false false
  | .reservedOp7 => encodeFields 7 0 false false false
  | .reservedOp8 => encodeFields 8 0 false false false
  | .reservedOp9 => encodeFields 9 0 false false false
  | .reservedOp10 => encodeFields 10 0 false false false
  | .reservedOp11 => encodeFields 11 0 false false false
  | .reservedOp12 => encodeFields 12 0 false false false
  | .reservedOp13 => encodeFields 13 0 false false false
  | .reservedOp14 => encodeFields 14 0 false false false
  | .reservedOp15 => encodeFields 15 0 false false false

/-- The OP code of a mnemonic (R93). -/
def Mnemonic.op : Mnemonic → Word
  | .convertP420 | .convertSpab | .convertSpba | .convertRgb565 | .convertRgb8888 => 0
  | .pcopy => 1
  | .deint => 2
  | .swap => 3
  | .rgb565 => 4
  | .rgb8888 => 5

/-- The FMT code of a mnemonic; the leaf commands have none and get 0 (R94). -/
def Mnemonic.fmt : Mnemonic → Word
  | .convertP420 => 0
  | .convertSpab => 1
  | .convertSpba => 2
  | .convertRgb565 => 3
  | .convertRgb8888 => 4
  | .pcopy | .deint | .swap | .rgb565 | .rgb8888 => 0

/-- The word of a written command: every modifier sets its bit, read or ignored (R102). -/
def Command.word (c : Command) : Word := encodeFields c.mnemonic.op c.mnemonic.fmt c.bf c.share c.err

/-- A row of spec/opcode_table.json: a word `w` selects it when `w & mask = match` ("Reading opcode_table.json"). -/
structure OpcodeRow where
  matchBits : Word
  mask : Word
  deriving DecidableEq, Repr

def OpcodeRow.selects (r : OpcodeRow) (w : Word) : Bool := w &&& r.mask == r.matchBits

/-- The row of a command, its numbers as spec/opcode_table.json prints them. -/
def opcodeRow : Instr → OpcodeRow
  | .convertP420 _ _ _ => ⟨0x00, 0x7F⟩
  | .convertSpab _ _ _ => ⟨0x10, 0x7F⟩
  | .convertSpba _ _ _ => ⟨0x20, 0x7F⟩
  | .convertRgb565 _ _ _ => ⟨0x30, 0x7F⟩
  | .convertRgb8888 _ _ _ => ⟨0x40, 0x7F⟩
  | .pcopy => ⟨0x01, 0x0F⟩
  | .deint _ => ⟨0x02, 0x0F⟩
  | .swap => ⟨0x03, 0x0F⟩
  | .rgb565 _ => ⟨0x04, 0x0F⟩
  | .rgb8888 _ => ⟨0x05, 0x0F⟩
  | .convertReserved5 _ _ _ => ⟨0x50, 0x7F⟩
  | .convertReserved6 _ _ _ => ⟨0x60, 0x7F⟩
  | .convertReserved7 _ _ _ => ⟨0x70, 0x7F⟩
  | .reservedOp6 => ⟨0x06, 0x0F⟩
  | .reservedOp7 => ⟨0x07, 0x0F⟩
  | .reservedOp8 => ⟨0x08, 0x0F⟩
  | .reservedOp9 => ⟨0x09, 0x0F⟩
  | .reservedOp10 => ⟨0x0A, 0x0F⟩
  | .reservedOp11 => ⟨0x0B, 0x0F⟩
  | .reservedOp12 => ⟨0x0C, 0x0F⟩
  | .reservedOp13 => ⟨0x0D, 0x0F⟩
  | .reservedOp14 => ⟨0x0E, 0x0F⟩
  | .reservedOp15 => ⟨0x0F, 0x0F⟩

end Sys2Proof
end

