-- ==== Sys2Proof/Machine/State.lean ====
section
/-! DEFINITION. The machine's state as plain data (10_state.md R21), what can stop a step, and the state after reset (R43). -/

namespace Sys2Proof.Machine

/-- The fifteen read/write registers of 10_state.md R24. -/
structure Regs where
  cmd : Word
  srcYBase : Word
  srcYStride : Word
  srcCBase : Word
  srcCStride : Word
  dst0Base : Word
  dst0Stride : Word
  dst1Base : Word
  dst1Stride : Word
  dst2Base : Word
  dst2Stride : Word
  width : Word
  height : Word
  startRow : Word
  rowCount : Word
  deriving DecidableEq, Repr

/-- All fifteen 0: their reset values (R43). -/
def Regs.zero : Regs where
  cmd := 0
  srcYBase := 0
  srcYStride := 0
  srcCBase := 0
  srcCStride := 0
  dst0Base := 0
  dst0Stride := 0
  dst1Base := 0
  dst1Stride := 0
  dst2Base := 0
  dst2Stride := 0
  width := 0
  height := 0
  startRow := 0
  rowCount := 0

/-- The phase (R34). -/
inductive Phase where
  | idle | busy | ovlWait
  deriving DecidableEq, Repr

/-- The outcome codes of 60_exceptions.md R200. -/
inductive OutcomeCode where
  | none | ok | skipErr | skipOdd | skipShared | skipBadFmt | skipBadOp
  deriving DecidableEq, Repr

/-- The output formats FMT selects (30_encoding.md R94); 5, 6 and 7 are `unsupported`. -/
inductive Format where
  | planar420 | semiPlanarAB | semiPlanarBA | rgb565 | rgb8888 | unsupported
  deriving DecidableEq, Repr

/-- The two packings (43 R156, R157). -/
inductive PixelKind where
  | rgb565 | rgb8888
  deriving DecidableEq, Repr

/-- Names of the engine's working bytes: the variables a command's pseudocode reads into (`v`, `p`, `a` are
`first`; `q`, `b` are `second`; `Cb`, `Cr`, `Y`). -/
inductive Temp where
  | first | second | cb | cr | luma
  deriving DecidableEq, Repr

/-- The working bytes, part of the progress of a command (R41). -/
structure Work where
  first : Byte
  second : Byte
  cb : Byte
  cr : Byte
  luma : Byte
  deriving DecidableEq, Repr

/-- What a write stores: a working byte as it was read, or one byte of the pixel the working bytes give. -/
inductive Datum where
  | temp (t : Temp)
  | pixel (kind : PixelKind) (byte : Nat)
  deriving DecidableEq, Repr

/-- One access of the engine: one byte (20_memory.md R66). -/
inductive Access where
  | read (a : Addr) (t : Temp)
  | write (a : Addr) (d : Datum)
  deriving DecidableEq, Repr

/-- What a command is evaluated to (10_state.md R37): its accesses in canonical order (20 R70), its outcome and
its overlay flag. -/
structure Launch where
  accesses : List Access
  outcome : OutcomeCode
  overlay : Bool
  deriving DecidableEq, Repr

/-- Progress of a running command (R37, R41): the accesses still to make, the working bytes, and what it will end with. -/
structure Progress where
  pending : List Access
  work : Work
  outcome : OutcomeCode
  overlay : Bool
  deriving DecidableEq, Repr

/-- Memory: (address, byte) pairs, addresses strictly rising, no byte equal to `Memory.unlisted`. -/
abbrev Memory := List Host.Cell

/-- What an unlisted address reads as. DESIGN CHOICE (unsafe): the spec gives memory no initial contents; see
notes/assumptions/4.md. -/
def Memory.unlisted : Byte := 0

/-- The canonical form: addresses strictly rising and below 2^32, no entry equal to the unlisted byte. -/
def Memory.wf (m : Memory) : Bool :=
  decide (m.Pairwise fun c d => c.1 < d.1) && m.all fun c => decide (c.1 < 4294967296) && (c.2 != Memory.unlisted)

/-- The whole state. `config` holds the parameters of the hardware and platform (00 R8), which no step changes.
`regs`, `status`, `phase`, `latch`, `progress` are the engine's (10 R21, R40); `mem` is the platform's (20 R60);
`resetPin` and `ovlAck` are the two input signals (10 R35). `readData`, `env` and `freeCount` are the model's own
(notes/assumptions/14.md, 2.md, 6.md): what the last read returned, the coming actions of the other agents,
and the counter behind the free value. -/
structure State where
  config : Config
  regs : Regs
  status : Word
  phase : Phase
  latch : Regs
  progress : Option Progress
  mem : Memory
  resetPin : Bool
  ovlAck : Bool
  readData : Word
  env : List Event
  freeCount : Nat
  deriving DecidableEq, Repr

/-- The engine has no faults: "No command and no memory access can trap, fault or abort" (60_exceptions.md R201). -/
inductive Fault where
  deriving DecidableEq, Repr

/-- Why a step has no next state. -/
inductive Refusal where
  /-- Raised by a dispatch arm whose instruction has no meaning yet (no arm does). Safe. -/
  | notModelled (mnemonic : String)
  /-- Raised when a command's access sequence, or another agent's access, meets an address that is no plain memory
  of the platform: "no defined result" (20_memory.md R78, 93 U1). Safe. -/
  | unbackedAccess
  /-- Raised by a register access that is not an aligned 32-bit one: "outside this spec" (10_state.md R25, 93 U11). Safe. -/
  | registerAccessOutsideSpec
  /-- Raised by a write of the OVERLAY agent outside its request or outside the destination frame: it "writes
  nothing else" (60_exceptions.md R213, 70 R242). Safe. -/
  | overlayWriteOutsideFrame
  deriving DecidableEq, Repr

/-- The machine right after reset (R43, R230, R232), parameters and platform at their defaults, no action pending. -/
def State.reset : State where
  config := Config.default
  regs := Regs.zero
  status := 0
  phase := .idle
  latch := Regs.zero
  progress := none
  mem := []
  resetPin := false
  ovlAck := false
  readData := 0
  env := []
  freeCount := 0

end Sys2Proof.Machine
end

