-- ==== Sys2Proof/Machine/Colour.lean ====
section
/-! DEFINITION. The colour arithmetic of the YUV to RGB converter (43_yuv_rgb_converter.md R151 to R157, R163): integers, one floor shift per channel, clip, pack. -/

namespace Sys2Proof.Machine

/-- Arithmetic shift right, `floor(v / 2^n)` (00_scope.md R12, 43 R153 b). -/
def asr (v : Int) (n : Nat) : Int := v / 2 ^ n

/-- 0 below 0, 255 above 255, else the value (00_scope.md R12, 43 R154). -/
def clip8 (v : Int) : Byte := BitVec.ofNat 8 (min v.toNat 255)

/-- A chroma byte centred at 128: an integer in -128 .. 127 (R152). -/
def centred (c : Byte) : Int := (c.toNat : Int) - 128

/-- `r_delta` from Cr (R152). -/
def deltaR (cfg : Config) (cr : Byte) : Int := asr (centred cr * cfg.coeff1.toInt) 13

/-- `g_delta`: the two products are added, then shifted once (R152, R153 c). -/
def deltaG (cfg : Config) (cb cr : Byte) : Int :=
  asr (centred cb * cfg.coeff2.toInt + centred cr * cfg.coeff3.toInt) 13

/-- `b_delta` from Cb (R152). -/
def deltaB (cfg : Config) (cb : Byte) : Int := asr (centred cb * cfg.coeff4.toInt) 13

/-- A channel: luma, unscaled, plus the delta, clipped after the sum (R153 f, R154). -/
def channel (y : Byte) (delta : Int) : Byte := clip8 ((y.toNat : Int) + delta)

/-- RGB565 word: `r>>3` in bits 15:11, `g>>2` in 10:5, `b>>3` in 4:0 (R156). -/
def pack565 (r g b : Byte) : BitVec 16 :=
  ((r >>> 3).setWidth 16 <<< 11) ||| ((g >>> 2).setWidth 16 <<< 5) ||| (b >>> 3).setWidth 16

/-- RGB8888 word: r in bits 23:16, g in 15:8, b in 7:0, top byte zero (R157). -/
def pack8888 (r g b : Byte) : BitVec 32 :=
  (r.setWidth 32 <<< 16) ||| (g.setWidth 32 <<< 8) ||| b.setWidth 32

/-- Bytes per pixel (R150, R158). -/
def PixelKind.bytes : PixelKind → Nat
  | .rgb565 => 2
  | .rgb8888 => 4

/-- The packed word of one pixel, in 32 bits, from its luma byte and its block's chroma pair (R158, R162 g). -/
def pixelWord (cfg : Config) (kind : PixelKind) (y cb cr : Byte) : Word :=
  let r := channel y (deltaR cfg cr)
  let g := channel y (deltaG cfg cb cr)
  let b := channel y (deltaB cfg cb)
  match kind with
  | .rgb565 => (pack565 r g b).setWidth 32
  | .rgb8888 => pack8888 r g b

/-- Byte `k` of a word, byte 0 least significant (00_scope.md R12, 20_memory.md R64). -/
def byteOf (w : Word) (k : Nat) : Byte := w.extractLsb' (8 * k) 8

end Sys2Proof.Machine
end

