-- ==== Sys2Proof/Machine/Flags.lean ====
section
/-! DEFINITION. STATUS, the engine's only flags (10_state.md R32, R45): the word from its fields, the fields from the word, and the values the three phase changes write. -/

namespace Sys2Proof.Machine

/-- The code of an outcome, STATUS bits 7:4 (60_exceptions.md R200). -/
def OutcomeCode.code : OutcomeCode → Word
  | .none => 0
  | .ok => 1
  | .skipErr => 2
  | .skipOdd => 3
  | .skipShared => 4
  | .skipBadFmt => 5
  | .skipBadOp => 6

/-- One bit of STATUS at position `n`. -/
def statusBit (on : Bool) (n : Nat) : Word := (BitVec.ofBool on).setWidth 32 <<< n

/-- STATUS from its five fields, reserved bits 0 (R32). -/
def statusWord (busy done ovlReq ovlDone : Bool) (outcome : OutcomeCode) : Word :=
  statusBit busy 0 ||| statusBit done 1 ||| statusBit ovlReq 2 ||| statusBit ovlDone 3 ||| outcome.code <<< 4

/-- STATUS after START: BUSY alone (R36). -/
def statusStarted : Word := statusWord true false false false .none

/-- STATUS in OVLWAIT: BUSY and OVL_REQ (R38). -/
def statusRequest : Word := statusWord true false true false .none

/-- STATUS of a finished command that invoked no overlay (R38). -/
def statusFinished (outcome : OutcomeCode) : Word := statusWord false true false false outcome

/-- STATUS after the overlay acknowledge: DONE, OVL_DONE, outcome OK (R39). -/
def statusAcknowledged : Word := statusWord false true false true .ok

/-- STATUS.BUSY (R32). -/
def State.busy (s : State) : Bool := s.status.getLsbD 0
/-- STATUS.DONE, which output `done` equals (R32, R35). -/
def State.done (s : State) : Bool := s.status.getLsbD 1
/-- STATUS.OVL_REQ, which output `ovl_req` equals (R32, R35). -/
def State.ovlReq (s : State) : Bool := s.status.getLsbD 2
/-- STATUS.OVL_DONE (R32). -/
def State.ovlDone (s : State) : Bool := s.status.getLsbD 3
/-- STATUS.OUTCOME (R32). -/
def State.outcome (s : State) : BitVec 4 := s.status.extractLsb' 4 4

end Sys2Proof.Machine
end

