-- ==== Sys2Proof/Machine/Operands.lean ====
section
/-! DEFINITION. Operand forms: planes and element addresses (20_memory.md R62, R63), the planes the registers describe (30_encoding.md R98), row windows (44 R175), the byte positions of a chroma pair (41 R131). -/

namespace Sys2Proof.Machine

/-- A plane: base address of row 0 column 0 and distance in bytes between rows (00_scope.md R13). -/
structure Plane where
  base : Addr
  stride : Word
  deriving DecidableEq, Repr

/-- Address of byte `col` of row `row`: `base + row * stride + col`, modulo 2^32 (R62, R63). -/
def Plane.at (p : Plane) (row col : Nat) : Addr :=
  p.base + BitVec.ofNat 32 row * p.stride + BitVec.ofNat 32 col

/-- The plane advanced by a number of rows (44 R175). -/
def Plane.advance (p : Plane) (rows : Nat) : Plane :=
  { p with base := p.base + BitVec.ofNat 32 rows * p.stride }

/-- The source luma plane (10_state.md R28). -/
def Regs.srcY (r : Regs) : Plane := ⟨r.srcYBase, r.srcYStride⟩
/-- The source interleaved chroma plane (R28). -/
def Regs.srcC (r : Regs) : Plane := ⟨r.srcCBase, r.srcCStride⟩
/-- Destination plane 0: luma or packed RGB (R29). -/
def Regs.dst0 (r : Regs) : Plane := ⟨r.dst0Base, r.dst0Stride⟩
/-- Destination plane 1: component A, or interleaved chroma (R29). -/
def Regs.dst1 (r : Regs) : Plane := ⟨r.dst1Base, r.dst1Stride⟩
/-- Destination plane 2: component B (R29). -/
def Regs.dst2 (r : Regs) : Plane := ⟨r.dst2Base, r.dst2Stride⟩

/-- W, H, s and n as natural numbers (44 R170). -/
def Regs.w (r : Regs) : Nat := r.width.toNat
def Regs.h (r : Regs) : Nat := r.height.toNat
def Regs.s (r : Regs) : Nat := r.startRow.toNat
def Regs.n (r : Regs) : Nat := r.rowCount.toNat

/-- `s[0]` = 1: the start row is odd (44 R172). -/
def Regs.oddStart (r : Regs) : Bool := r.startRow.getLsbD 0

/-- `start_chroma_row = start_row / 2` (44 R175). -/
def Regs.cs (r : Regs) : Nat := r.s / 2

/-- The planes of a row window: luma and packed planes advanced by s rows, chroma planes by cs rows (44 R175). -/
def Regs.windowY (r : Regs) : Plane := r.srcY.advance r.s
def Regs.windowC (r : Regs) : Plane := r.srcC.advance r.cs
def Regs.window0 (r : Regs) : Plane := r.dst0.advance r.s
def Regs.window1 (r : Regs) : Plane := r.dst1.advance r.cs
def Regs.window2 (r : Regs) : Plane := r.dst2.advance r.cs

/-- The window's trailing edge reaches the frame height: `s + n >= H`, no wrap (44 R182). -/
def Regs.lastBand (r : Regs) : Bool := decide (r.h ≤ r.s + r.n)

/-- `posA`, `posB`: byte offsets of components A and B inside a pair (41 R131). -/
def posA (order : Bool) : Nat := if order then 1 else 0
def posB (order : Bool) : Nat := 1 - posA order

/-- The requested format is semi-planar in the source's own byte order (44 R173). -/
def native (fmt : Format) (order : Bool) : Bool :=
  match fmt with
  | .semiPlanarAB => !order
  | .semiPlanarBA => order
  | .planar420 | .rgb565 | .rgb8888 | .unsupported => false

/-- The format a latched FMT field selects (30 R94, R99 b). -/
def Format.ofBits (f : BitVec 3) : Format :=
  match f.toNat with
  | 0 => .planar420
  | 1 => .semiPlanarAB
  | 2 => .semiPlanarBA
  | 3 => .rgb565
  | 4 => .rgb8888
  | _ => .unsupported

/-- The destination planes a format uses: plane, bytes per row, rows, for a frame of W by H (10_state.md R29). -/
def Format.planes (fmt : Format) (r : Regs) : List (Plane × Nat × Nat) :=
  match fmt with
  | .planar420 => [(r.dst0, r.w, r.h), (r.dst1, r.w / 2, r.h / 2), (r.dst2, r.w / 2, r.h / 2)]
  | .semiPlanarAB => [(r.dst0, r.w, r.h), (r.dst1, r.w, r.h / 2)]
  | .semiPlanarBA => [(r.dst0, r.w, r.h), (r.dst1, r.w, r.h / 2)]
  | .rgb565 => [(r.dst0, 2 * r.w, r.h)]
  | .rgb8888 => [(r.dst0, 4 * r.w, r.h)]
  | .unsupported => []

/-- The address is one of the plane's bytes: some row and some column below the row's width. -/
def Plane.holds (p : Plane) (width rows : Nat) (a : Addr) : Bool :=
  (List.range rows).any fun r => decide ((a - p.at r 0).toNat < width)

/-- The address lies in the destination frame of the command in these registers (60_exceptions.md R213). -/
def Regs.inFrame (r : Regs) (a : Addr) : Bool :=
  ((Format.ofBits (cmdFmt r.cmd)).planes r).any fun (p, width, rows) => p.holds width rows a

/-- The address is plain memory of the platform (20_memory.md R67, R78). -/
def backed (cfg : Config) (a : Addr) : Bool :=
  cfg.plainMemory.any fun r => decide ((a - r.base).toNat < r.size)

end Sys2Proof.Machine
end

