-- ==== Sys2Proof/Machine/Ops.lean ====
section
/-! DEFINITION. The operations over memory, registers and phase: byte reads and writes, the accesses of a command, START (10_state.md R36), the end of BUSY (R38), the overlay acknowledge (R39), reset (70 R230, R231), the register interface (R25 to R27, R44). The engine has no exceptions (60 R201, R208, R209); where another machine takes one, this engine ends the command: `endBusy`. -/

namespace Sys2Proof.Machine

/-- The byte at an address (20_memory.md R67). -/
def Memory.read : Memory → Addr → Byte
  | [], _ => Memory.unlisted
  | c :: m, a => if c.1 = a.toNat then c.2 else Memory.read m a

/-- Memory without an entry for the address. -/
def Memory.erase (m : Memory) (a : Addr) : Memory := m.filter fun c => c.1 ≠ a.toNat

/-- Memory with an entry put at its place in address order. -/
def Memory.insert : Memory → Addr → Byte → Memory
  | [], a, v => [(a.toNat, v)]
  | c :: m, a, v => if a.toNat < c.1 then (a.toNat, v) :: c :: m else c :: Memory.insert m a v

/-- Store one byte (20_memory.md R67), keeping the canonical form. -/
def Memory.write (m : Memory) (a : Addr) (v : Byte) : Memory :=
  if v = Memory.unlisted then m.erase a else (m.erase a).insert a v

/-- `MemWrite(a, n, v)`: bytes `v[8k+7:8k]` at `a + k` for ascending k (00_scope.md R12). -/
def Memory.writeWord (m : Memory) (a : Addr) : (n : Nat) → Word → Memory
  | 0, _ => m
  | n + 1, v => (m.writeWord a n v).write (a + BitVec.ofNat 32 n) (byteOf v n)

/-- The working bytes at the start of a command; none is used before it is read (notes/assumptions/7.md). -/
def Work.start : Work := ⟨0, 0, 0, 0, 0⟩

/-- A working byte. -/
def Work.get (w : Work) : Temp → Byte
  | .first => w.first
  | .second => w.second
  | .cb => w.cb
  | .cr => w.cr
  | .luma => w.luma

/-- The working bytes with one replaced. -/
def Work.set (w : Work) (t : Temp) (v : Byte) : Work :=
  match t with
  | .first => { w with first := v }
  | .second => { w with second := v }
  | .cb => { w with cb := v }
  | .cr => { w with cr := v }
  | .luma => { w with luma := v }

/-- The byte a write stores. -/
def Datum.value (cfg : Config) (w : Work) : Datum → Byte
  | .temp t => w.get t
  | .pixel kind k => byteOf (pixelWord cfg kind w.luma w.cb w.cr) k

/-- The address of an access. -/
def Access.addr : Access → Addr
  | .read a _ => a
  | .write a _ => a

/-- Is the access a write? -/
def Access.isWrite : Access → Bool
  | .read _ _ => false
  | .write _ _ => true

/-- Perform one access (20_memory.md R72: its step and its performance are the same event). -/
def Access.perform (cfg : Config) (x : Access) (c : Work × Memory) : Work × Memory :=
  match x with
  | .read a t => (c.1.set t (c.2.read a), c.2)
  | .write a d => (c.1, c.2.write a (d.value cfg c.1))

/-- Perform accesses in the order of the list (R70). -/
def performAll (cfg : Config) : List Access → Work × Memory → Work × Memory
  | [], c => c
  | x :: xs, c => performAll cfg xs (x.perform cfg c)

/-- A launch with no access: every SKIP outcome (60_exceptions.md R201, R208). -/
def Launch.skip (outcome : OutcomeCode) : Launch := ⟨[], outcome, false⟩

/-- A launch of a leaf command: outcome OK, never an overlay (30 R98). -/
def Launch.leaf (accesses : List Access) : Launch := ⟨accesses, .ok, false⟩

/-- Progress at the start of a launch. -/
def Launch.begin (l : Launch) : Progress := ⟨l.accesses, Work.start, l.outcome, l.overlay⟩

/-- What the running command still has to do: its progress, or all of the launch when it has just started. -/
def State.current (s : State) (l : Launch) : Progress :=
  match s.progress with
  | none => l.begin
  | some p => p

/-- Every address still to be accessed is plain memory of the platform (20_memory.md R78). -/
def Progress.admitted (cfg : Config) (p : Progress) : Bool := p.pending.all fun x => backed cfg x.addr

/-- END OF BUSY (10_state.md R38): with the overlay flag the phase becomes OVLWAIT and STATUS 0x05, otherwise
IDLE and `0x02 | OUTCOME << 4`; the progress is discarded (R42). -/
def endBusy (outcome : OutcomeCode) (overlay : Bool) (s : State) : State :=
  if overlay then { s with phase := .ovlWait, status := statusRequest, progress := none }
  else { s with phase := .idle, status := statusFinished outcome, progress := none }

/-- THE WHOLE COMMAND: all its accesses one after another, then the end of BUSY (R37, R38). Every meaning is one
call of this. A launch with an access outside plain memory is refused (R78). -/
def runCommand (l : Launch) (s : State) : Host.Outcome State Fault Refusal :=
  if (s.current l).admitted s.config then
    .next (endBusy (s.current l).outcome (s.current l).overlay
      { s with mem := (performAll s.config (s.current l).pending ((s.current l).work, s.mem)).2 })
  else .refused .unbackedAccess

/-- ONE ENGINE STEP of a running command (R37): its next access, or, when none is left, the end of BUSY. -/
def stepCommand (l : Launch) (s : State) : Host.Outcome State Fault Refusal :=
  if (s.current l).admitted s.config then
    match (s.current l).pending with
    | [] => .next (endBusy (s.current l).outcome (s.current l).overlay s)
    | x :: xs =>
      let c := x.perform s.config ((s.current l).work, s.mem)
      .next { s with mem := c.2, progress := some { s.current l with pending := xs, work := c.1 } }
  else .refused .unbackedAccess

/-- START (R36): latch the registers, phase BUSY, STATUS 0x01; nothing of the command is done yet. -/
def startCommand (s : State) : State :=
  { s with latch := s.regs, phase := .busy, status := statusStarted, progress := none }

/-- The overlay acknowledge observed in OVLWAIT (R39, 60 R212). -/
def acknowledge (s : State) : State := { s with phase := .idle, status := statusAcknowledged }

/-- The reset state of the engine (R43, 70 R230, R231); memory is not touched. -/
def enterReset (s : State) : State :=
  { s with regs := Regs.zero, status := 0, phase := .idle, latch := Regs.zero, progress := none }

/-- CMD keeps bits 9:0 (R27). -/
def cmdStored (v : Word) : Word := v &&& 0x3FF

/-- A read of a register (R25 to R27). -/
def readReg (s : State) : Reg → Word
  | .ctrl => 0
  | .status => s.status
  | .cmd => s.regs.cmd
  | .srcYBase => s.regs.srcYBase
  | .srcYStride => s.regs.srcYStride
  | .srcCBase => s.regs.srcCBase
  | .srcCStride => s.regs.srcCStride
  | .dst0Base => s.regs.dst0Base
  | .dst0Stride => s.regs.dst0Stride
  | .dst1Base => s.regs.dst1Base
  | .dst1Stride => s.regs.dst1Stride
  | .dst2Base => s.regs.dst2Base
  | .dst2Stride => s.regs.dst2Stride
  | .width => s.regs.width
  | .height => s.regs.height
  | .startRow => s.regs.startRow
  | .rowCount => s.regs.rowCount

/-- The registers after a write in phase IDLE; CTRL holds nothing and STATUS is read-only (R24, R26, R32). -/
def Regs.set (r : Regs) (reg : Reg) (v : Word) : Regs :=
  match reg with
  | .ctrl => r
  | .status => r
  | .cmd => { r with cmd := cmdStored v }
  | .srcYBase => { r with srcYBase := v }
  | .srcYStride => { r with srcYStride := v }
  | .srcCBase => { r with srcCBase := v }
  | .srcCStride => { r with srcCStride := v }
  | .dst0Base => { r with dst0Base := v }
  | .dst0Stride => { r with dst0Stride := v }
  | .dst1Base => { r with dst1Base := v }
  | .dst1Stride => { r with dst1Stride := v }
  | .dst2Base => { r with dst2Base := v }
  | .dst2Stride => { r with dst2Stride := v }
  | .width => { r with width := v }
  | .height => { r with height := v }
  | .startRow => { r with startRow := v }
  | .rowCount => { r with rowCount := v }

/-- A register write: ignored outside IDLE and while `reset` is asserted (R25, 70 R230, R236); CTRL bit 0 starts
a command (R26). -/
def writeReg (s : State) (reg : Reg) (v : Word) : State :=
  if s.resetPin || s.phase != .idle then s
  else if reg = .ctrl then (if v.getLsbD 0 then startCommand s else s)
  else { s with regs := s.regs.set reg v }

/-- The `ovl_*` outputs: driven from L while `ovl_req` = 1, a free value otherwise (10_state.md R35, R38). -/
def State.ovlOutputs (s : State) : OvlBundle :=
  if s.ovlReq then
    { fmt := cmdFmt s.latch.cmd, dst0Base := s.latch.dst0Base, dst1Base := s.latch.dst1Base, dst2Base := s.latch.dst2Base, dst0Stride := s.latch.dst0Stride, dst1Stride := s.latch.dst1Stride, dst2Stride := s.latch.dst2Stride, width := s.latch.width, height := s.latch.height }
  else Config.freeOvl s.freeCount

end Sys2Proof.Machine
end

