-- ==== Sys2Proof/Machine/Leaves.lean ====
section
/-! DEFINITION. The four leaf operations as access sequences in canonical order (20_memory.md R70): PlaneCopy (40 R121), Deinterleave (41 R132), SwapPairs (42 R141), YuvToRgb (43 R158). -/

namespace Sys2Proof.Machine

/-- The accesses of a row loop around a column loop: rows ascending, columns ascending inside (R70). -/
def grid (rows cols : Nat) (body : Nat → Nat → List Access) : List Access :=
  (List.range rows).flatMap fun r => (List.range cols).flatMap fun c => body r c

/-- One byte of PlaneCopy (40 R121). -/
def copyByte (src dst : Plane) (r c : Nat) : List Access :=
  [.read (src.at r c) .first, .write (dst.at r c) (.temp .first)]

/-- `PlaneCopy(src, dst, w, h)` (40 R121). -/
def planeCopy (src dst : Plane) (w h : Nat) : List Access := grid h w (copyByte src dst)

/-- One pair of Deinterleave: both bytes read, then A written, then B (41 R132). -/
def splitPair (src dA dB : Plane) (order : Bool) (i j : Nat) : List Access :=
  [.read (src.at i (2 * j + posA order)) .first, .read (src.at i (2 * j + posB order)) .second,
   .write (dA.at i j) (.temp .first), .write (dB.at i j) (.temp .second)]

/-- `Deinterleave(src, dA, dB, W, H, order)` (41 R132). -/
def deinterleave (src dA dB : Plane) (w h : Nat) (order : Bool) : List Access :=
  grid (h / 2) (w / 2) (splitPair src dA dB order)

/-- One pair of SwapPairs: both bytes read, then written exchanged (42 R141). -/
def swapPair (src dst : Plane) (i j : Nat) : List Access :=
  [.read (src.at i (2 * j)) .first, .read (src.at i (2 * j + 1)) .second,
   .write (dst.at i (2 * j)) (.temp .second), .write (dst.at i (2 * j + 1)) (.temp .first)]

/-- `SwapPairs(src, dst, W, H)` (42 R141). -/
def swapPairs (src dst : Plane) (w h : Nat) : List Access := grid (h / 2) (w / 2) (swapPair src dst)

/-- The byte stores of one pixel, ascending addresses (20_memory.md R64, R66). -/
def storePixel (kind : PixelKind) (a : Addr) : List Access :=
  (List.range kind.bytes).map fun k => .write (a + BitVec.ofNat 32 k) (.pixel kind k)

/-- One pixel of a block: its luma read, then its stores (43 R158). -/
def convertPixel (kind : PixelKind) (y d : Plane) (row col : Nat) : List Access :=
  .read (y.at row col) .luma :: storePixel kind (d.at row (col * kind.bytes))

/-- One 2 by 2 block: two chroma reads, then its four pixels (43 R155, R158). -/
def convertBlock (kind : PixelKind) (y c d : Plane) (order : Bool) (i j : Nat) : List Access :=
  [.read (c.at i (2 * j + posA order)) .cb, .read (c.at i (2 * j + posB order)) .cr] ++
    convertPixel kind y d (2 * i) (2 * j) ++ convertPixel kind y d (2 * i) (2 * j + 1) ++
    convertPixel kind y d (2 * i + 1) (2 * j) ++ convertPixel kind y d (2 * i + 1) (2 * j + 1)

/-- `YuvToRgb(kind, y, c, d, W, H, order)` (43 R158). -/
def yuvToRgb (kind : PixelKind) (y c d : Plane) (w h : Nat) (order : Bool) : List Access :=
  grid (h / 2) (w / 2) (convertBlock kind y c d order)

end Sys2Proof.Machine
end

