-- ==== Sys2Proof/Machine/ChromaDeinterleaver.lean ====
section
/-! DEFINITION. The chroma de-interleaver's command DEINT (41_chroma_deinterleaver.md R133). -/

namespace Sys2Proof.Machine

/-- DEINT: SRC_C to component planes DST1 (A) and DST2 (B) (R133). -/
def launchDeint (order : Bool) (l : Regs) : Launch :=
  Launch.leaf (deinterleave l.srcC l.dst1 l.dst2 l.w l.h order)

def execDeint (order : Bool) (s : State) : Host.Outcome State Fault Refusal := runCommand (launchDeint order s.latch) s

end Sys2Proof.Machine
end

