-- ==== Sys2Proof/Machine/ChromaSwapper.lean ====
section
/-! DEFINITION. The chroma swapper's command SWAP (42_chroma_swapper.md R142). -/

namespace Sys2Proof.Machine

/-- SWAP: SRC_C to DST1, the bytes of each pair exchanged (R142). -/
def launchSwap (l : Regs) : Launch := Launch.leaf (swapPairs l.srcC l.dst1 l.w l.h)

def execSwap (s : State) : Host.Outcome State Fault Refusal := runCommand (launchSwap s.latch) s

end Sys2Proof.Machine
end

