-- ==== Sys2Proof/Machine/Dispatcher.lean ====
section
/-! DEFINITION. The format dispatcher, the commands CONVERT (44_format_dispatcher.md R170 to R190). -/

namespace Sys2Proof.Machine

/-- The luma copy of the window, left out when luma storage is shared (R176, R177). -/
def lumaCopy (share : Bool) (l : Regs) : List Access :=
  if share then [] else planeCopy l.windowY l.window0 l.w l.n

/-- Planar output (R176). -/
def convertPlanar (order share : Bool) (l : Regs) : List Access :=
  lumaCopy share l ++ deinterleave l.windowC l.window1 l.window2 l.w l.n order

/-- Semi-planar output: chroma copied in the native order, swapped otherwise (R177). -/
def convertSemiPlanar (isNative share : Bool) (l : Regs) : List Access :=
  lumaCopy share l ++
    (if isNative then planeCopy l.windowC l.window1 l.w (l.n / 2) else swapPairs l.windowC l.window1 l.w l.n)

/-- Packed output; SHARE is ignored (R179). -/
def convertPacked (kind : PixelKind) (order : Bool) (l : Regs) : List Access :=
  yuvToRgb kind l.windowY l.windowC l.window0 l.w l.n order

/-- Step 4: the accesses of the format's leaf operations (R175 to R180). -/
def convertAccesses (fmt : Format) (order share : Bool) (l : Regs) : List Access :=
  match fmt with
  | .planar420 => convertPlanar order share l
  | .semiPlanarAB => convertSemiPlanar (native .semiPlanarAB order) share l
  | .semiPlanarBA => convertSemiPlanar (native .semiPlanarBA order) share l
  | .rgb565 => convertPacked .rgb565 order l
  | .rgb8888 => convertPacked .rgb8888 order l
  | .unsupported => []

/-- `Convert()`: the tests in the order of R183, then the leaf operations and the overlay condition (R182). -/
def launchConvert (fmt : Format) (order share err : Bool) (l : Regs) : Launch :=
  if err then Launch.skip .skipErr
  else if l.oddStart then Launch.skip .skipOdd
  else if share && native fmt order then Launch.skip .skipShared
  else if fmt = .unsupported then Launch.skip .skipBadFmt
  else ⟨convertAccesses fmt order share l, .ok, l.lastBand⟩

/-- CONVERT.P420 (R184). -/
def execConvertP420 (order share err : Bool) (s : State) : Host.Outcome State Fault Refusal :=
  runCommand (launchConvert .planar420 order share err s.latch) s

/-- CONVERT.SPAB (R185). -/
def execConvertSpab (order share err : Bool) (s : State) : Host.Outcome State Fault Refusal :=
  runCommand (launchConvert .semiPlanarAB order share err s.latch) s

/-- CONVERT.SPBA (R186). -/
def execConvertSpba (order share err : Bool) (s : State) : Host.Outcome State Fault Refusal :=
  runCommand (launchConvert .semiPlanarBA order share err s.latch) s

/-- CONVERT.RGB565 (R187). -/
def execConvertRgb565 (order share err : Bool) (s : State) : Host.Outcome State Fault Refusal :=
  runCommand (launchConvert .rgb565 order share err s.latch) s

/-- CONVERT.RGB8888 (R188). -/
def execConvertRgb8888 (order share err : Bool) (s : State) : Host.Outcome State Fault Refusal :=
  runCommand (launchConvert .rgb8888 order share err s.latch) s

/-- OP = 0, FMT = 5: unsupported output format (R180, 30 R99 b). -/
def execConvertReserved5 (order share err : Bool) (s : State) : Host.Outcome State Fault Refusal :=
  runCommand (launchConvert .unsupported order share err s.latch) s

/-- OP = 0, FMT = 6 (R180, 30 R99 b). -/
def execConvertReserved6 (order share err : Bool) (s : State) : Host.Outcome State Fault Refusal :=
  runCommand (launchConvert .unsupported order share err s.latch) s

/-- OP = 0, FMT = 7 (R180, 30 R99 b). -/
def execConvertReserved7 (order share err : Bool) (s : State) : Host.Outcome State Fault Refusal :=
  runCommand (launchConvert .unsupported order share err s.latch) s

end Sys2Proof.Machine
end

