-- ==== Sys2Proof/Machine/PlaneCopier.lean ====
section
/-! DEFINITION. The plane copier's command PCOPY (40_plane_copier.md R122). -/

namespace Sys2Proof.Machine

/-- PCOPY: SRC_Y to DST0, WIDTH bytes by HEIGHT rows (R122). -/
def launchPcopy (l : Regs) : Launch := Launch.leaf (planeCopy l.srcY l.dst0 l.w l.h)

def execPcopy (s : State) : Host.Outcome State Fault Refusal := runCommand (launchPcopy s.latch) s

end Sys2Proof.Machine
end

