-- ==== Sys2Proof/Machine/Reserved.lean ====
section
/-! DEFINITION. The reserved operations OP = 6 to 15: no access, outcome SKIP_BADOP (60_exceptions.md R206, 30 R99 a). -/

namespace Sys2Proof.Machine

/-- A reserved OP does nothing but report SKIP_BADOP (R206). -/
def launchBadOp : Launch := Launch.skip .skipBadOp

def execReservedOp6 (s : State) : Host.Outcome State Fault Refusal := runCommand launchBadOp s
def execReservedOp7 (s : State) : Host.Outcome State Fault Refusal := runCommand launchBadOp s
def execReservedOp8 (s : State) : Host.Outcome State Fault Refusal := runCommand launchBadOp s
def execReservedOp9 (s : State) : Host.Outcome State Fault Refusal := runCommand launchBadOp s
def execReservedOp10 (s : State) : Host.Outcome State Fault Refusal := runCommand launchBadOp s
def execReservedOp11 (s : State) : Host.Outcome State Fault Refusal := runCommand launchBadOp s
def execReservedOp12 (s : State) : Host.Outcome State Fault Refusal := runCommand launchBadOp s
def execReservedOp13 (s : State) : Host.Outcome State Fault Refusal := runCommand launchBadOp s
def execReservedOp14 (s : State) : Host.Outcome State Fault Refusal := runCommand launchBadOp s
def execReservedOp15 (s : State) : Host.Outcome State Fault Refusal := runCommand launchBadOp s

end Sys2Proof.Machine
end

