-- ==== Sys2Proof/Machine/YuvRgb.lean ====
section
/-! DEFINITION. The YUV to RGB converter's commands RGB565 and RGB8888 (43_yuv_rgb_converter.md R159, R160). -/

namespace Sys2Proof.Machine

/-- RGB565 (R159). -/
def launchRgb565 (order : Bool) (l : Regs) : Launch :=
  Launch.leaf (yuvToRgb .rgb565 l.srcY l.srcC l.dst0 l.w l.h order)

def execRgb565 (order : Bool) (s : State) : Host.Outcome State Fault Refusal := runCommand (launchRgb565 order s.latch) s

/-- RGB8888 (R160). -/
def launchRgb8888 (order : Bool) (l : Regs) : Launch :=
  Launch.leaf (yuvToRgb .rgb8888 l.srcY l.srcC l.dst0 l.w l.h order)

def execRgb8888 (order : Bool) (s : State) : Host.Outcome State Fault Refusal := runCommand (launchRgb8888 order s.latch) s

end Sys2Proof.Machine
end

