-- ==== Sys2Proof/Machine/Dispatch.lean ====
section
/-! DEFINITION. The dispatch of a decoded command to its meaning, one arm per row of spec/opcode_table.json. -/

namespace Sys2Proof.Machine

/-- The whole effect of command `i` on a state in which it has been started: every access it still has to make,
then the end of the BUSY phase (10_state.md R37, R38). -/
def exec (i : Instr) (s : State) : Host.Outcome State Fault Refusal :=
  match i with
  | .convertP420 order share err => Sys2Proof.Machine.execConvertP420 order share err s
  | .convertSpab order share err => Sys2Proof.Machine.execConvertSpab order share err s
  | .convertSpba order share err => Sys2Proof.Machine.execConvertSpba order share err s
  | .convertRgb565 order share err => Sys2Proof.Machine.execConvertRgb565 order share err s
  | .convertRgb8888 order share err => Sys2Proof.Machine.execConvertRgb8888 order share err s
  | .pcopy => Sys2Proof.Machine.execPcopy s
  | .deint order => Sys2Proof.Machine.execDeint order s
  | .swap => Sys2Proof.Machine.execSwap s
  | .rgb565 order => Sys2Proof.Machine.execRgb565 order s
  | .rgb8888 order => Sys2Proof.Machine.execRgb8888 order s
  | .convertReserved5 order share err => Sys2Proof.Machine.execConvertReserved5 order share err s
  | .convertReserved6 order share err => Sys2Proof.Machine.execConvertReserved6 order share err s
  | .convertReserved7 order share err => Sys2Proof.Machine.execConvertReserved7 order share err s
  | .reservedOp6 => Sys2Proof.Machine.execReservedOp6 s
  | .reservedOp7 => Sys2Proof.Machine.execReservedOp7 s
  | .reservedOp8 => Sys2Proof.Machine.execReservedOp8 s
  | .reservedOp9 => Sys2Proof.Machine.execReservedOp9 s
  | .reservedOp10 => Sys2Proof.Machine.execReservedOp10 s
  | .reservedOp11 => Sys2Proof.Machine.execReservedOp11 s
  | .reservedOp12 => Sys2Proof.Machine.execReservedOp12 s
  | .reservedOp13 => Sys2Proof.Machine.execReservedOp13 s
  | .reservedOp14 => Sys2Proof.Machine.execReservedOp14 s
  | .reservedOp15 => Sys2Proof.Machine.execReservedOp15 s

end Sys2Proof.Machine
end

