-- ==== Sys2Proof/Machine/Engine.lean ====
section
/-! DEFINITION. The engine between the other agents' actions: what a command is evaluated to (10_state.md R37), one engine step of the engine (R37 to R39), and the engine running while no other agent acts. -/

namespace Sys2Proof.Machine

/-- What a command is evaluated to on the latched registers: the rule of that command (R37). -/
def launch (i : Instr) (l : Regs) : Launch :=
  match i with
  | .convertP420 order share err => launchConvert .planar420 order share err l
  | .convertSpab order share err => launchConvert .semiPlanarAB order share err l
  | .convertSpba order share err => launchConvert .semiPlanarBA order share err l
  | .convertRgb565 order share err => launchConvert .rgb565 order share err l
  | .convertRgb8888 order share err => launchConvert .rgb8888 order share err l
  | .pcopy => launchPcopy l
  | .deint order => launchDeint order l
  | .swap => launchSwap l
  | .rgb565 order => launchRgb565 order l
  | .rgb8888 order => launchRgb8888 order l
  | .convertReserved5 order share err => launchConvert .unsupported order share err l
  | .convertReserved6 order share err => launchConvert .unsupported order share err l
  | .convertReserved7 order share err => launchConvert .unsupported order share err l
  | .reservedOp6 => launchBadOp
  | .reservedOp7 => launchBadOp
  | .reservedOp8 => launchBadOp
  | .reservedOp9 => launchBadOp
  | .reservedOp10 => launchBadOp
  | .reservedOp11 => launchBadOp
  | .reservedOp12 => launchBadOp
  | .reservedOp13 => launchBadOp
  | .reservedOp14 => launchBadOp
  | .reservedOp15 => launchBadOp

/-- The command the engine is running: the latched CMD, decoded (R36, R37). -/
def State.command (s : State) : Instr := decode s.latch.cmd

/-- OVLWAIT: nothing but the sampling of `ovl_ack` (R39, 60 R212, R214). -/
def sampleAck (s : State) : State := if s.ovlAck then acknowledge s else s

/-- The ENGINE takes one engine step: nothing in IDLE and while held in reset, one byte access or the end of BUSY
in BUSY (R37, R38), one sample of `ovl_ack` in OVLWAIT (R39). -/
def engineStep (s : State) : Host.Outcome State Fault Refusal :=
  if s.resetPin then .next s
  else
    match s.phase with
    | .idle => .next s
    | .busy => stepCommand (launch s.command s.latch) s
    | .ovlWait => .next (sampleAck s)

/-- The ENGINE runs while no other agent acts: as `engineStep`, but a running command is carried to the end of
BUSY, its engine steps falling together (20 R79 lets other steps fall between them; here none does). -/
def engineRun (s : State) : Host.Outcome State Fault Refusal :=
  if s.resetPin then .next s
  else
    match s.phase with
    | .idle => .next s
    | .busy => exec s.command s
    | .ovlWait => .next (sampleAck s)

end Sys2Proof.Machine
end

