-- ==== Sys2Proof/Machine/Environment.lean ====
section
/-! DEFINITION. The actions of the other agents (10_state.md R20, 20 R79, 70 R246), one at a time, and the expansion of host programs into them (30_encoding.md R103). -/

namespace Sys2Proof.Machine

/-- A HOST register access (R25 to R27, R44): other sizes and unaligned offsets are refused (93 U11); offsets
with no register read 0 and ignore writes. -/
def accessReg (size off : Nat) (data : Option Word) (s : State) : Host.Outcome State Fault Refusal :=
  if size = 4 ∧ off % 4 = 0 then
    match Reg.ofOffset off, data with
    | some r, some v => .next (writeReg s r v)
    | some r, none => .next { s with readData := readReg s r }
    | none, some _ => .next s
    | none, none => .next { s with readData := 0 }
  else .refused .registerAccessOutsideSpec

/-- May this agent write this byte now? OVERLAY only while its request stands and only in the destination frame
(60 R213); of the others the spec asks nothing here (20 R79). DESIGN CHOICE (safe): R213's window "between `ovl_req`
and `ovl_ack`" closes when the engine observes the acknowledge and leaves OVLWAIT, not when the level `ovl_ack` rises:
a write after the rise and before that observation is still taken (notes/assumptions/10.md). -/
def mayWrite (s : State) (who : Agent) (a : Addr) : Bool :=
  match who with
  | .overlay => s.phase == .ovlWait && s.latch.inFrame a
  | .host => true
  | .decoder => true
  | .otherEngine => true

/-- A memory access of another agent: one byte, at this place in the one order of all accesses (20 R72). -/
def accessMem (who : Agent) (a : Addr) (data : Option Byte) (s : State) : Host.Outcome State Fault Refusal :=
  if backed s.config a then
    match data with
    | none => .next { s with readData := (s.mem.read a).setWidth 32 }
    | some v => if mayWrite s who a then .next { s with mem := s.mem.write a v } else .refused .overlayWriteOutsideFrame
  else .refused .unbackedAccess

/-- The overlay draw: writes of the OVERLAY agent in order (60 R213). -/
def drawBytes : List (Addr × Byte) → State → Host.Outcome State Fault Refusal
  | [], s => .next s
  | (a, v) :: ds, s =>
    match accessMem .overlay a (some v) s with
    | .next t => drawBytes ds t
    | .fault f => .fault f
    | .refused r => .refused r

/-- The OVERLAY agent's answer to a request: its draw, then `ovl_ack` = 1, which the engine observes (60 R212, R213). -/
def answerRequest (draw : List (Addr × Byte)) (s : State) : Host.Outcome State Fault Refusal :=
  match drawBytes draw s with
  | .next t => .next (acknowledge t)
  | .fault f => .fault f
  | .refused r => .refused r

/-- Input `reset` takes a level; asserted, the engine enters the reset state (70 R230, R231). -/
def driveReset (level : Bool) (s : State) : State :=
  if level then { enterReset s with resetPin := true } else { s with resetPin := false }

/-- `WAIT` polls STATUS (30 R103): it is over when DONE reads 1, and until then the engine runs on and the same
action stays first. -/
def pollDone (s rest : State) : Host.Outcome State Fault Refusal :=
  if s.done then .next { rest with readData := s.status }
  else engineRun { s with readData := s.status }

/-- `ACK` (30 R103): it answers the request when `ovl_req` is 1; while the command is BUSY the engine runs on and
the action stays first; in IDLE there is no request and it passes (60 R212). -/
def awaitRequest (draw : List (Addr × Byte)) (s rest : State) : Host.Outcome State Fault Refusal :=
  match s.phase with
  | .idle => .next rest
  | .busy => engineRun s
  | .ovlWait => answerRequest draw rest

/-- One action, taken in state `s`; `rest` is `s` with the action removed from the coming ones. -/
def act (e : Event) (s rest : State) : Host.Outcome State Fault Refusal :=
  match e with
  | .reg size off data => accessReg size off data rest
  | .mem who a data => accessMem who a data rest
  | .ovlAck level => .next { rest with ovlAck := level }
  | .reset level => .next (driveReset level rest)
  | .engine => engineStep rest
  | .wait => pollDone s rest
  | .ack draw => awaitRequest draw s rest

/-- The free value's counter advances at every step (notes/assumptions/6.md). -/
def State.tick (s : State) : State := { s with freeCount := s.freeCount + 1 }

/-- What one step does: the first of the coming actions, or, when none is left, the engine alone. -/
def stepBody (s : State) : Host.Outcome State Fault Refusal :=
  match s.env with
  | [] => engineRun s
  | e :: es => act e s { s with env := es }

/-- The writes a host makes to have command word `w` run at once: phase IDLE, `WR CMD, w`, `GO` (30 R103), no
other action pending. -/
def placeCommand (w : Word) (s : State) : State :=
  startCommand { s with regs := s.regs.set .cmd w, env := [], resetPin := false, phase := .idle }

/-- A write of a register, as an action (30 R103). -/
def wr (r : Reg) (v : Word) : Event := .reg 4 r.offset (some v)

/-- The actions of a host statement: the expansions of 30_encoding.md R103. -/
def HostStmt.events : HostStmt → List Event
  | .wr r v => [Machine.wr r v]
  | .rd r => [.reg 4 r.offset none]
  | .go => [Machine.wr .ctrl 1]
  | .cmd c => [Machine.wr .cmd c.word]
  | .srcY b s => [Machine.wr .srcYBase b, Machine.wr .srcYStride s]
  | .srcC b s => [Machine.wr .srcCBase b, Machine.wr .srcCStride s]
  | .dst0 b s => [Machine.wr .dst0Base b, Machine.wr .dst0Stride s]
  | .dst1 b s => [Machine.wr .dst1Base b, Machine.wr .dst1Stride s]
  | .dst2 b s => [Machine.wr .dst2Base b, Machine.wr .dst2Stride s]
  | .dim w h => [Machine.wr .width w, Machine.wr .height h]
  | .win s n => [Machine.wr .startRow s, Machine.wr .rowCount n]
  | .wait => [.wait]
  | .ack draw => [.ack draw]

/-- A host program: its statements' actions in order (R103). -/
def hostProgram (p : List HostStmt) : List Event := p.flatMap HostStmt.events

end Sys2Proof.Machine
end

