-- ==== Sys2Proof/Machine/Step.lean ====
section
/-! DEFINITION. The step, and the placing of a command so that the next step runs it. -/

namespace Sys2Proof.Machine

/-- One step of the machine: the free value's counter advances, then `stepBody`. -/
def step (s : State) : Host.Outcome State Fault Refusal := stepBody s.tick

/-- The state in which the HOST has just written the table word to CMD and started it (notes/assumptions/1.md):
the very next step runs the command. Bits above `nbits` are 0. -/
def State.withFetchWord (s : State) (nbits w : Nat) : State := placeCommand (BitVec.ofNat 32 (w % 2 ^ nbits)) s

end Sys2Proof.Machine
end

