-- ==== Sys2Proof/Safety.lean ====
section
/-! DEFINITION. What claims are stated in: the named premises of a launch (70_reset_and_hazards.md R247), the pseudocode of the four leaf operations over memory alone (40 R121, 41 R132, 42 R141, 43 R158), how a command ends, and the invariants of the machine. -/

namespace Sys2Proof.Safety

open Sys2Proof.Machine

/-! ### Premises of a launch -/

/-- `Idle`: the phase at the START write (R247, R236). -/
abbrev Idle (s : State) : Prop := s.phase = .idle

/-- The command in phase BUSY has just been started: nothing of it is done. -/
abbrev Started (s : State) : Prop := s.progress = none

/-- `BuffersOwned` and `PlainMemory` (R237, R243): every address of the access sequence is plain memory. -/
abbrev BuffersOwned (i : Instr) (s : State) : Prop :=
  ∀ x ∈ (launch i s.latch).accesses, backed s.config x.addr = true

/-- Addresses a command reads and writes, in order. -/
def readSet (xs : List Access) : List Addr := (xs.filter fun x => !x.isWrite).map Access.addr
def writeSet (xs : List Access) : List Addr := (xs.filter Access.isWrite).map Access.addr

/-- `Disjoint` (R241): no byte is both read and written, and none is written twice (20 R71). -/
abbrev Disjoint (xs : List Access) : Prop := (∀ a ∈ readSet xs, a ∉ writeSet xs) ∧ (writeSet xs).Nodup

/-- Addresses row by row, column by column inside, in the canonical order (20 R70). -/
def addrGrid (rows cols : Nat) (body : Nat → Nat → List Addr) : List Addr :=
  (List.range rows).flatMap fun r => (List.range cols).flatMap fun c => body r c

/-- No byte of the sequence is at the address. -/
def leavesAlone (xs : List Access) (a : Addr) : Bool := !(xs.any fun x => x.addr == a)

/-- `HandsOff` (R238) for one action of another agent: it writes no byte of the read set and accesses none of the
write set. The bytes of an overlay draw count like any other write: OVLWAIT is before DONE. -/
def handsOff (xs : List Access) : Event → Bool
  | .mem _ a (some _) => leavesAlone xs a
  | .mem _ a none => !((writeSet xs).any fun b => b == a)
  | .ack draw => draw.all fun d => leavesAlone xs d.1
  | .reg _ _ _ | .ovlAck _ | .reset _ | .engine | .wait => true

/-- `Even` (R240). -/
abbrev Even (r : Regs) : Prop := r.s % 2 = 0 ∧ r.n % 2 = 0 ∧ r.w % 2 = 0 ∧ r.h % 2 = 0

/-- `HandsOff` (R238) for a started command: every coming action up to its DONE keeps off its bytes. -/
def HandsOff (s : State) : Prop :=
  ∀ k t, core.run k s = .next t → (∀ j u, j ≤ k → core.run j s = .next u → u.done = false) →
    ∀ e es, t.env = e :: es → handsOff (launch s.command s.latch).accesses e = true

/-- `OverlayAcks` (R242): at every point of the run the collaborator writes no byte outside the destination frame, and
every request is acknowledged in finite time: from OVLWAIT, finitely many steps on, STATUS is 0x1A, and the engine was in
OVLWAIT all the way there. That it does not touch the registers needs no premise: no action of the OVERLAY does. -/
def OverlayAcks (s : State) : Prop :=
  ∀ k t, core.run k s = .next t →
    step t ≠ .refused .overlayWriteOutsideFrame ∧
    (t.phase = .ovlWait → ∃ j u, core.run j t = .next u ∧ u.status = statusAcknowledged ∧
      ∀ i v, i < j → core.run i t = .next v → v.phase = .ovlWait)

/-- The simplest platform that acknowledges: `ovl_ack` tied high or to `ovl_req` (60 R214), no other action coming.
Laws/Step.lean proves that it meets `OverlayAcks`. -/
abbrev OverlayTied (s : State) : Prop := s.ovlAck = true ∧ s.env = [] ∧ s.resetPin = false

/-- `CoeffFixed` (R247): the coefficients are R9's defaults. -/
abbrev CoeffFixed (cfg : Config) : Prop :=
  cfg.coeff1.toInt = 13073 ∧ cfg.coeff2.toInt = -3207 ∧ cfg.coeff3.toInt = -6664 ∧ cfg.coeff4.toInt = 16530

/-! ### The pseudocode of the leaf operations, on memory alone -/

/-- `for k in 0 .. n-1`. -/
def loop (n : Nat) (body : Nat → Memory → Memory) (m : Memory) : Memory :=
  (List.range n).foldl (fun m k => body k m) m

/-- `PlaneCopy` (40 R121). -/
def copyPlane (src dst : Plane) (w h : Nat) (m : Memory) : Memory :=
  loop h (fun r => loop w (fun c m => m.write (dst.at r c) (m.read (src.at r c)))) m

/-- `Deinterleave` (41 R132). -/
def splitPlane (src dA dB : Plane) (w h : Nat) (order : Bool) (m : Memory) : Memory :=
  loop (h / 2) (fun i => loop (w / 2) (fun j m =>
    (m.write (dA.at i j) (m.read (src.at i (2 * j + posA order)))).write (dB.at i j)
      (m.read (src.at i (2 * j + posB order))))) m

/-- `SwapPairs` (42 R141). -/
def swapPlane (src dst : Plane) (w h : Nat) (m : Memory) : Memory :=
  loop (h / 2) (fun i => loop (w / 2) (fun j m =>
    (m.write (dst.at i (2 * j)) (m.read (src.at i (2 * j + 1)))).write (dst.at i (2 * j + 1))
      (m.read (src.at i (2 * j))))) m

/-- `YuvToRgb` (43 R158). -/
def convertPlane (cfg : Config) (kind : PixelKind) (y c d : Plane) (w h : Nat) (order : Bool) (m : Memory) : Memory :=
  loop (h / 2) (fun i => loop (w / 2) (fun j m =>
    let cb := m.read (c.at i (2 * j + posA order))
    let cr := m.read (c.at i (2 * j + posB order))
    loop 2 (fun dy => loop 2 (fun dx m =>
      m.writeWord (d.at (2 * i + dy) ((2 * j + dx) * kind.bytes)) kind.bytes
        (pixelWord cfg kind (m.read (y.at (2 * i + dy) (2 * j + dx))) cb cr))) m)) m

/-! ### How a command ends -/

/-- The state after a command that invokes no overlay: new memory, phase IDLE, STATUS `st` (10 R38). -/
def endsIdle (s : State) (m : Memory) (st : Word) : State :=
  { s with mem := m, phase := .idle, status := st, progress := none }

/-- The state after a CONVERT with outcome OK: OVLWAIT and 0x05 when START_ROW + ROW_COUNT >= HEIGHT, else IDLE
and 0x12 (10 R38, 44 R182). -/
def endsConvert (s : State) (m : Memory) : State :=
  if s.latch.height.toNat ≤ s.latch.startRow.toNat + s.latch.rowCount.toNat then
    { s with mem := m, phase := .ovlWait, status := 0x05, progress := none }
  else endsIdle s m 0x12

/-! ### Invariants -/

/-- STATUS and phase agree, and STATUS has one of the ten values of 10_state.md R32 (R34). -/
def StatusAgrees (s : State) : Prop :=
  match s.phase with
  | .idle => s.status ∈ [0x00, 0x12, 0x1A, 0x22, 0x32, 0x42, 0x52, 0x62]
  | .busy => s.status = 0x01
  | .ovlWait => s.status = 0x05

/-- A running command is the latched one: it will end as its launch says, and what it still has to access is a
final part of its access sequence (10_state.md R37, R41). -/
def ProgressAgrees (s : State) : Prop :=
  ∀ p, s.progress = some p →
    s.phase = .busy ∧ p.outcome = (launch s.command s.latch).outcome ∧ p.overlay = (launch s.command s.latch).overlay ∧
      p.pending <:+ (launch s.command s.latch).accesses

/-- The engine's invariant: STATUS and progress agree with the phase; the latch equals the registers while a
command is in progress (R40); CMD holds no reserved bit (R27); under `reset` the engine is in the reset state (70 R230). -/
def Coherent (s : State) : Prop :=
  StatusAgrees s ∧ ProgressAgrees s ∧ (s.phase ≠ .idle → s.latch = s.regs) ∧ s.regs.cmd &&& 0x3FF = s.regs.cmd ∧
    (s.resetPin = true → s.phase = .idle ∧ s.status = 0 ∧ s.regs = Regs.zero)

end Sys2Proof.Safety
end

