-- ==== Sys2Proof/Certificates/Slice0/Obligations.lean ====
section
/-! DEFINITION. What is claimed of the machine: one proposition per statement, each docstring naming the rule of spec/ it rests on. -/

open Sys2Proof Sys2Proof.Machine Sys2Proof.Safety

/-! ### Encoding -/

/-- Words of 95 section 2.1, bit by bit from 30 R90, R93, R94. -/
def Obligations.DecodesWrittenOutWords : Prop :=
  decode 0x00000080 = .convertP420 true false false ∧ decode 0x00000110 = .convertSpab false true false ∧
  decode 0x000001A0 = .convertSpba true true false ∧ decode 0x00000220 = .convertSpba false false true ∧
  decode 0x00000030 = .convertRgb565 false false false ∧ decode 0x00000040 = .convertRgb8888 false false false ∧
  decode 0x00000001 = .pcopy ∧ decode 0x00000082 = .deint true ∧ decode 0x00000003 = .swap ∧
  decode 0x00000004 = .rgb565 false ∧ decode 0x00000085 = .rgb8888 true ∧
  decode 0x00000070 = .convertReserved7 false false false ∧ decode 0x00000006 = .reservedOp6 ∧
  decode 0x0000000F = .reservedOp15 ∧ decode 0xFFFFFC01 = .pcopy ∧ decode 0x00000371 = .pcopy

/-- Decoding undoes encoding, for every command and every value of its modifiers (30 R90, R92); and the word of every
command the assembler writes, any mnemonic with any of BF, SHARE and ERR, decodes to that mnemonic's command with the
modifiers it reads (R102, R98, R99 c). -/
def Obligations.DecodeUndoesEncode : Prop :=
  (∀ i : Instr, i.wf = true → decode (encode i) = i) ∧ ∀ c : Command, decode c.word = c.instr

/-- Every word selects the row of the command it decodes to, and no other row (30 R92, "Over bits 9:0 every word
selects exactly one row"). -/
def Obligations.EveryWordSelectsOneRow : Prop :=
  ∀ w : Word, (opcodeRow (decode w)).selects w = true ∧
    ∀ i : Instr, (opcodeRow i).selects w = true → opcodeRow i = opcodeRow (decode w)

/-- Ignored bits (30 R99 c, d): bits 31:10 never matter; PCOPY, SWAP and OP 6 to 15 look at OP alone; DEINT,
RGB565 and RGB8888 at OP and ORDER alone. -/
def Obligations.IgnoredBitsDoNotChangeDecode : Prop :=
  (∀ w : Word, decode (w &&& 0x3FF) = decode w) ∧
  (∀ w : Word, w &&& 0xF = 1 ∨ w &&& 0xF = 3 ∨ 6 ≤ w &&& 0xF → decode (w &&& 0xF) = decode w) ∧
  (∀ w : Word, w &&& 0xF = 2 ∨ w &&& 0xF = 4 ∨ w &&& 0xF = 5 → decode (w &&& 0x8F) = decode w)

/-! ### The step -/

/-- With no other agent acting (no action pending, or the HOST in WAIT before DONE, or an ACK before the request),
a step in phase BUSY is `exec` of the latched command word, decoded (10 R36, R37). Around `exec` the step advances
the free value's counter; WAIT also returns STATUS. -/
def Obligations.StepRunsTheStartedCommand : Prop :=
  ∀ s : State, s.phase = .busy → s.resetPin = false →
    (s.env = [] → step s = exec (decode s.latch.cmd) s.tick) ∧
    (∀ es, s.env = .wait :: es → s.done = false →
      step s = exec (decode s.latch.cmd) { s.tick with readData := s.status }) ∧
    (∀ draw es, s.env = .ack draw :: es → step s = exec (decode s.latch.cmd) s.tick)

/-- A program comes to run by the HOST's writes: from IDLE, a write of CMD and `GO` take two steps, which latch the
registers with bits 9:0 of the command word in CMD, and the third step is `exec` of the decoded word (10 R27, R36,
30 R103). The write is `WR CMD, w` for any word, `CMD <command>` for any command of R102, or `WR CMD` with the encoding
of any command. `withFetchWord` reaches the state the two writes reach (with the actions pending removed;
notes/assumptions/1.md). -/
def Obligations.HostWritesStartTheCommand : Prop :=
  ∀ s : State, s.phase = .idle → s.resetPin = false →
    let starts (word : Word) (i : Instr) : Prop :=
      ∃ t : State, core.run 2 s = .next t ∧ t.phase = .busy ∧ t.status = 0x01 ∧ t.progress = none ∧
        t.latch = { s.regs with cmd := word } ∧ t.regs = t.latch ∧ t.mem = s.mem ∧ step t = exec i t.tick ∧
        t = { s.withFetchWord 32 word.toNat with freeCount := s.freeCount + 2 }
    (∀ w, s.env = hostProgram [.wr .cmd w, .go] → starts (w &&& 0x3FF) (decode w)) ∧
    (∀ c : Command, s.env = hostProgram [.cmd c, .go] → starts c.word c.instr) ∧
    (∀ i : Instr, s.env = hostProgram [.wr .cmd (encode i), .go] → starts (encode i) i)

/-! ### Reset -/

/-- 10 R43, R232: what reset leaves. The decoding of CMD = 0 and the run of a bare START are R43's own words. The
bundle is a free value. Input levels, latch and the model's own fields are not part of this statement. -/
def Obligations.ResetLeavesTheStatedValues : Prop :=
  (∀ r : Reg, readReg State.reset r = 0) ∧ State.reset.phase = .idle ∧ State.reset.status = 0x00000000 ∧
  State.reset.done = false ∧ State.reset.ovlReq = false ∧ State.reset.progress = none ∧
  State.reset.ovlOutputs = Config.freeOvl State.reset.freeCount ∧
  decode State.reset.regs.cmd = .convertP420 false false false ∧
  (launch (.convertP420 false false false) State.reset.regs) = ⟨[], .ok, true⟩ ∧
  (∀ (b : Bool) (s : State), (driveReset b s).mem = s.mem)

/-- 70 R230, R231: asserting `reset` in any state puts the engine into the reset state in one step, leaving memory
and parameters; a pending overlay request is withdrawn; while it is held, neither a register write nor the engine
does anything. -/
def Obligations.ResetAbortsAndHolds : Prop :=
  ∀ s : State,
    (∀ es, s.env = .reset true :: es →
      ∃ t, step s = .next t ∧ t.phase = .idle ∧ t.status = 0 ∧ t.regs = Regs.zero ∧ t.progress = none ∧
        t.done = false ∧ t.ovlReq = false ∧ t.mem = s.mem ∧ t.config = s.config ∧ t.resetPin = true ∧ t.env = es) ∧
    (s.resetPin = true →
      (∀ r v es, s.env = wr r v :: es → step s = .next { s.tick with env := es }) ∧
      (∀ es, s.env = .engine :: es → step s = .next { s.tick with env := es }) ∧
      (s.env = [] → step s = .next s.tick))

/-- 70 R231: a reset after k engine steps leaves memory as the first k accesses of the canonical order left it. Which prefix
a schedule gives, and one access a step, are the model's reading (notes/assumptions/11.md, 22.md). -/
def Obligations.ResetKeepsAPrefixOfTheAccesses : Prop :=
  ∀ (s : State) (k : Nat), s.phase = .busy → s.resetPin = false → Started s → BuffersOwned s.command s →
    k ≤ (launch s.command s.latch).accesses.length →
    s.env = List.replicate k .engine ++ [.reset true] →
    ∃ t, core.run (k + 1) s = .next t ∧
      t.mem = (performAll s.config ((launch s.command s.latch).accesses.take k) (Work.start, s.mem)).2 ∧
      t.phase = .idle ∧ t.status = 0 ∧ t.regs = Regs.zero ∧ t.progress = none

/-! ### The register interface -/

/-- 10 R25, R27: in IDLE a write sets its read/write register (CMD keeps bits 9:0) and changes what no other
register reads; STATUS is read-only; outside IDLE every write, START included, changes nothing (R236). -/
def Obligations.RegisterWritesTakeEffectOnlyInIdle : Prop :=
  ∀ (s : State) (r : Reg) (v : Word) (es : List Event), s.env = wr r v :: es →
    (s.phase ≠ .idle → step s = .next { s.tick with env := es }) ∧
    (s.phase = .idle → s.resetPin = false → r ≠ .ctrl →
      ∃ regs, step s = .next { s.tick with env := es, regs := regs } ∧
        ∀ q : Reg, readReg { s with regs := regs } q =
          if q = r ∧ q ≠ .status then (if q = .cmd then v &&& 0x3FF else v) else readReg s q)

/-- 10 R25, R26: a read returns the register (CTRL reads 0) in every phase and has no other effect. -/
def Obligations.RegisterReadsHaveNoSideEffect : Prop :=
  ∀ (s : State) (r : Reg) (es : List Event), s.env = .reg 4 r.offset none :: es →
    step s = .next { s.tick with env := es, readData := readReg s r } ∧ readReg s .ctrl = 0

/-- 10 R44: an offset that is no register's reads as 0 and ignores writes. -/
def Obligations.OffsetsOutsideTheMapHoldNothing : Prop :=
  ∀ (s : State) (off : Nat) (es : List Event), off % 4 = 0 → (∀ r : Reg, r.offset ≠ off) →
    (s.env = .reg 4 off none :: es → step s = .next { s.tick with env := es, readData := 0 }) ∧
    (∀ v, s.env = .reg 4 off (some v) :: es → step s = .next { s.tick with env := es })

/-- 10 R25, 93 U11: an access of another size or at an unaligned offset is refused by name. -/
def Obligations.OtherRegisterAccessesAreRefused : Prop :=
  ∀ (s : State) (size off : Nat) (d : Option Word) (es : List Event), s.env = .reg size off d :: es →
    (size ≠ 4 ∨ off % 4 ≠ 0) → step s = .refused .registerAccessOutsideSpec

/-- 10 R26, R36: a write to CTRL with bit 0 = 1 in IDLE latches the fifteen registers and makes the phase BUSY and
STATUS 0x00000001; with bit 0 = 0, or outside IDLE, it has no effect; the other bits are ignored. -/
def Obligations.StartLatchesTheRegisters : Prop :=
  ∀ (s : State) (v : Word) (es : List Event), s.resetPin = false → s.env = wr .ctrl v :: es →
    step s = .next (if s.phase = .idle ∧ v &&& 1 = 1
      then { s.tick with env := es, latch := s.regs, phase := .busy, status := 0x00000001, progress := none }
      else { s.tick with env := es })

/-! ### Commands: completion, frame, result -/

/-- 20 R78: a command is admitted when every address of its access sequence is plain memory of the platform, and
then answers a next state, whatever the command; otherwise it is refused. -/
def Obligations.CommandAdmittedOrRefused : Prop :=
  ∀ (i : Instr) (s : State), Started s →
    (BuffersOwned i s → ∃ t, exec i s = .next t) ∧
    (¬ BuffersOwned i s → exec i s = .refused .unbackedAccess)

/-- The frame of every command, at any point of its progress: registers, latch, parameters, signals and the
model's own fields keep their values, the progress is discarded, and every byte outside the addresses it still
has to write reads as before (20 R77, 10 R42, 70 R246). -/
def Obligations.CommandFrame : Prop :=
  ∀ (i : Instr) (s t : State), exec i s = .next t →
    t.regs = s.regs ∧ t.latch = s.latch ∧ t.config = s.config ∧ t.resetPin = s.resetPin ∧ t.ovlAck = s.ovlAck ∧
    t.readData = s.readData ∧ t.env = s.env ∧ t.freeCount = s.freeCount ∧ t.progress = none ∧ t.phase ≠ .busy ∧
    ∀ a : Addr, a ∉ writeSet (s.current (launch i s.latch)).pending → t.mem.read a = s.mem.read a

/-- 40 R121, R122: PCOPY copies, in the order of the pseudocode, and reads and writes exactly these bytes. First, the
addresses every such statement speaks of, as numbers (20 R62, and 44 R175 for a plane advanced by n rows), and the
registers each plane is read from. -/
def Obligations.PcopyRunsPlaneCopy : Prop :=
  (∀ (p : Plane) (n r c : Nat),
    (p.at r c).toNat = (p.base.toNat + r * p.stride.toNat + c) % 2 ^ 32 ∧
    ((p.advance n).at r c).toNat = (p.base.toNat + (n + r) * p.stride.toNat + c) % 2 ^ 32) ∧
  (∀ l : Regs, l.srcY = ⟨l.srcYBase, l.srcYStride⟩ ∧ l.srcC = ⟨l.srcCBase, l.srcCStride⟩ ∧
    l.dst0 = ⟨l.dst0Base, l.dst0Stride⟩ ∧ l.dst1 = ⟨l.dst1Base, l.dst1Stride⟩ ∧ l.dst2 = ⟨l.dst2Base, l.dst2Stride⟩ ∧
    l.w = l.width.toNat ∧ l.h = l.height.toNat ∧ l.s = l.startRow.toNat ∧ l.n = l.rowCount.toNat) ∧
  ∀ s : State, Started s → BuffersOwned .pcopy s →
    exec .pcopy s = .next (endsIdle s (copyPlane s.latch.srcY s.latch.dst0 s.latch.w s.latch.h s.mem) 0x12) ∧
    readSet (launch .pcopy s.latch).accesses = addrGrid s.latch.h s.latch.w (fun r c => [s.latch.srcY.at r c]) ∧
    writeSet (launch .pcopy s.latch).accesses = addrGrid s.latch.h s.latch.w (fun r c => [s.latch.dst0.at r c])

/-- 41 R131, R132, R133: DEINT. -/
def Obligations.DeintRunsDeinterleave : Prop :=
  ∀ (order : Bool) (s : State), Started s → BuffersOwned (.deint order) s →
    exec (.deint order) s = .next (endsIdle s
      (splitPlane s.latch.srcC s.latch.dst1 s.latch.dst2 s.latch.w s.latch.h order s.mem) 0x12) ∧
    readSet (launch (.deint order) s.latch).accesses = addrGrid (s.latch.h / 2) (s.latch.w / 2) (fun i j =>
      [s.latch.srcC.at i (2 * j + if order then 1 else 0), s.latch.srcC.at i (2 * j + if order then 0 else 1)]) ∧
    writeSet (launch (.deint order) s.latch).accesses = addrGrid (s.latch.h / 2) (s.latch.w / 2) (fun i j =>
      [s.latch.dst1.at i j, s.latch.dst2.at i j])

/-- 42 R141, R142: SWAP. -/
def Obligations.SwapRunsSwapPairs : Prop :=
  ∀ s : State, Started s → BuffersOwned .swap s →
    exec .swap s = .next (endsIdle s (swapPlane s.latch.srcC s.latch.dst1 s.latch.w s.latch.h s.mem) 0x12) ∧
    readSet (launch .swap s.latch).accesses = addrGrid (s.latch.h / 2) (s.latch.w / 2) (fun i j =>
      [s.latch.srcC.at i (2 * j), s.latch.srcC.at i (2 * j + 1)]) ∧
    writeSet (launch .swap s.latch).accesses = addrGrid (s.latch.h / 2) (s.latch.w / 2) (fun i j =>
      [s.latch.dst1.at i (2 * j), s.latch.dst1.at i (2 * j + 1)])

/-- 43 R158, R159: RGB565. -/
def Obligations.Rgb565RunsYuvToRgb : Prop :=
  ∀ (order : Bool) (s : State), Started s → BuffersOwned (.rgb565 order) s →
    exec (.rgb565 order) s = .next (endsIdle s
      (convertPlane s.config .rgb565 s.latch.srcY s.latch.srcC s.latch.dst0 s.latch.w s.latch.h order s.mem) 0x12) ∧
    writeSet (launch (.rgb565 order) s.latch).accesses = addrGrid (s.latch.h / 2) (s.latch.w / 2) (fun i j =>
      [s.latch.dst0.at (2 * i) (4 * j), s.latch.dst0.at (2 * i) (4 * j + 1),
       s.latch.dst0.at (2 * i) (4 * j + 2), s.latch.dst0.at (2 * i) (4 * j + 3),
       s.latch.dst0.at (2 * i + 1) (4 * j), s.latch.dst0.at (2 * i + 1) (4 * j + 1),
       s.latch.dst0.at (2 * i + 1) (4 * j + 2), s.latch.dst0.at (2 * i + 1) (4 * j + 3)]) ∧
    readSet (launch (.rgb565 order) s.latch).accesses = addrGrid (s.latch.h / 2) (s.latch.w / 2) (fun i j =>
      [s.latch.srcC.at i (2 * j + if order then 1 else 0), s.latch.srcC.at i (2 * j + if order then 0 else 1),
       s.latch.srcY.at (2 * i) (2 * j), s.latch.srcY.at (2 * i) (2 * j + 1),
       s.latch.srcY.at (2 * i + 1) (2 * j), s.latch.srcY.at (2 * i + 1) (2 * j + 1)])

/-- 43 R158, R160: RGB8888. -/
def Obligations.Rgb8888RunsYuvToRgb : Prop :=
  ∀ (order : Bool) (s : State), Started s → BuffersOwned (.rgb8888 order) s →
    exec (.rgb8888 order) s = .next (endsIdle s
      (convertPlane s.config .rgb8888 s.latch.srcY s.latch.srcC s.latch.dst0 s.latch.w s.latch.h order s.mem) 0x12) ∧
    writeSet (launch (.rgb8888 order) s.latch).accesses = addrGrid (s.latch.h / 2) (s.latch.w / 2) (fun i j =>
      (List.range 8).map (fun k => s.latch.dst0.at (2 * i) (8 * j + k)) ++
      (List.range 8).map (fun k => s.latch.dst0.at (2 * i + 1) (8 * j + k))) ∧
    readSet (launch (.rgb8888 order) s.latch).accesses = addrGrid (s.latch.h / 2) (s.latch.w / 2) (fun i j =>
      [s.latch.srcC.at i (2 * j + if order then 1 else 0), s.latch.srcC.at i (2 * j + if order then 0 else 1),
       s.latch.srcY.at (2 * i) (2 * j), s.latch.srcY.at (2 * i) (2 * j + 1),
       s.latch.srcY.at (2 * i + 1) (2 * j), s.latch.srcY.at (2 * i + 1) (2 * j + 1)])

/-- 44 R175, R176, R182: CONVERT.P420 on an even start row without error: the luma copy unless SHARE, then the
de-interleave, on the window's planes. -/
def Obligations.ConvertP420Runs : Prop :=
  ∀ (order share : Bool) (s : State), Started s → BuffersOwned (.convertP420 order share false) s →
    s.latch.startRow.toNat % 2 = 0 →
    exec (.convertP420 order share false) s = .next (endsConvert s
      (splitPlane (s.latch.srcC.advance (s.latch.s / 2)) (s.latch.dst1.advance (s.latch.s / 2))
        (s.latch.dst2.advance (s.latch.s / 2)) s.latch.w s.latch.n order
        (if share then s.mem
         else copyPlane (s.latch.srcY.advance s.latch.s) (s.latch.dst0.advance s.latch.s) s.latch.w s.latch.n s.mem)))

/-- 44 R173, R175, R177, R182: CONVERT.SPAB and CONVERT.SPBA on an even start row without error, not both shared
and native: the luma copy unless SHARE, then the chroma copy in the native order or else the swap. -/
def Obligations.ConvertSemiPlanarRuns : Prop :=
  ∀ (order share : Bool) (s : State), Started s → s.latch.startRow.toNat % 2 = 0 →
    let luma := if share then s.mem
      else copyPlane (s.latch.srcY.advance s.latch.s) (s.latch.dst0.advance s.latch.s) s.latch.w s.latch.n s.mem
    let c := s.latch.srcC.advance (s.latch.s / 2)
    let d := s.latch.dst1.advance (s.latch.s / 2)
    (BuffersOwned (.convertSpab order share false) s → ¬ (share = true ∧ order = false) →
      exec (.convertSpab order share false) s = .next (endsConvert s
        (if order = false then copyPlane c d s.latch.w (s.latch.n / 2) luma
         else swapPlane c d s.latch.w s.latch.n luma))) ∧
    (BuffersOwned (.convertSpba order share false) s → ¬ (share = true ∧ order = true) →
      exec (.convertSpba order share false) s = .next (endsConvert s
        (if order = true then copyPlane c d s.latch.w (s.latch.n / 2) luma
         else swapPlane c d s.latch.w s.latch.n luma)))

/-- 44 R175, R179, R182: CONVERT.RGB565 and CONVERT.RGB8888 on an even start row without error; SHARE is ignored. -/
def Obligations.ConvertPackedRuns : Prop :=
  ∀ (order share : Bool) (s : State), Started s → s.latch.startRow.toNat % 2 = 0 →
    (BuffersOwned (.convertRgb565 order share false) s →
      exec (.convertRgb565 order share false) s = .next (endsConvert s
        (convertPlane s.config .rgb565 (s.latch.srcY.advance s.latch.s) (s.latch.srcC.advance (s.latch.s / 2))
          (s.latch.dst0.advance s.latch.s) s.latch.w s.latch.n order s.mem))) ∧
    (BuffersOwned (.convertRgb8888 order share false) s →
      exec (.convertRgb8888 order share false) s = .next (endsConvert s
        (convertPlane s.config .rgb8888 (s.latch.srcY.advance s.latch.s) (s.latch.srcC.advance (s.latch.s / 2))
          (s.latch.dst0.advance s.latch.s) s.latch.w s.latch.n order s.mem)))

/-- 44 R171, 60 R202: with ERR every command of OP 0 does nothing and ends with SKIP_ERR, whatever else holds. -/
def Obligations.UpstreamErrorSkips : Prop :=
  ∀ (order share : Bool) (s : State), Started s →
    ∀ i ∈ [Instr.convertP420 order share true, .convertSpab order share true, .convertSpba order share true,
      .convertRgb565 order share true, .convertRgb8888 order share true, .convertReserved5 order share true,
      .convertReserved6 order share true, .convertReserved7 order share true],
    exec i s = .next (endsIdle s s.mem 0x22) ∧ (launch i s.latch).accesses = []

/-- 44 R172, 60 R203: without ERR an odd start row ends every command of OP 0 with SKIP_ODD, nothing done. -/
def Obligations.OddStartRowSkips : Prop :=
  ∀ (order share : Bool) (s : State), Started s → s.latch.startRow.toNat % 2 = 1 →
    ∀ i ∈ [Instr.convertP420 order share false, .convertSpab order share false, .convertSpba order share false,
      .convertRgb565 order share false, .convertRgb8888 order share false, .convertReserved5 order share false,
      .convertReserved6 order share false, .convertReserved7 order share false],
    exec i s = .next (endsIdle s s.mem 0x32) ∧ (launch i s.latch).accesses = []

/-- 44 R173, R174, 60 R204: shared storage and the native semi-planar order end the command with SKIP_SHARED. -/
def Obligations.SharedNativeSkips : Prop :=
  ∀ s : State, Started s → s.latch.startRow.toNat % 2 = 0 →
    ∀ i ∈ [Instr.convertSpab false true false, .convertSpba true true false],
    exec i s = .next (endsIdle s s.mem 0x42) ∧ (launch i s.latch).accesses = []

/-- 44 R180, 60 R205: FMT 5, 6 and 7 end with SKIP_BADFMT when neither ERR nor an odd start row ended the command. -/
def Obligations.UnsupportedFormatSkips : Prop :=
  ∀ (order share : Bool) (s : State), Started s → s.latch.startRow.toNat % 2 = 0 →
    ∀ i ∈ [Instr.convertReserved5 order share false, .convertReserved6 order share false,
      .convertReserved7 order share false],
    exec i s = .next (endsIdle s s.mem 0x52) ∧ (launch i s.latch).accesses = []

/-- 60 R206: OP 6 to 15 end with SKIP_BADOP, nothing done, whatever the other fields of the word. -/
def Obligations.ReservedOperationSkips : Prop :=
  let reserved := [Instr.reservedOp6, .reservedOp7, .reservedOp8, .reservedOp9, .reservedOp10, .reservedOp11,
    .reservedOp12, .reservedOp13, .reservedOp14, .reservedOp15]
  (∀ w : Word, 6 ≤ w &&& 0xF → decode w ∈ reserved) ∧
  ∀ s : State, Started s → ∀ i ∈ reserved,
    exec i s = .next (endsIdle s s.mem 0x62) ∧ (launch i s.latch).accesses = []

/-- 30 R98: a register a command does not list cannot affect it: commands whose listed registers agree have the same
access sequence, outcome and overlay flag. -/
def Obligations.UnlistedRegistersDoNotMatter : Prop :=
  ∀ (order share err : Bool) (l l' : Regs), l.width = l'.width → l.height = l'.height →
    (l.srcY = l'.srcY → l.dst0 = l'.dst0 → launch .pcopy l = launch .pcopy l') ∧
    (l.srcC = l'.srcC → l.dst1 = l'.dst1 → launch .swap l = launch .swap l') ∧
    (l.srcC = l'.srcC → l.dst1 = l'.dst1 → l.dst2 = l'.dst2 → launch (.deint order) l = launch (.deint order) l') ∧
    (l.srcY = l'.srcY → l.srcC = l'.srcC → l.dst0 = l'.dst0 →
      launch (.rgb565 order) l = launch (.rgb565 order) l' ∧ launch (.rgb8888 order) l = launch (.rgb8888 order) l') ∧
    (l.startRow = l'.startRow → l.rowCount = l'.rowCount → l.srcC = l'.srcC →
      ((share = false → l.srcY = l'.srcY ∧ l.dst0 = l'.dst0) → l.dst1 = l'.dst1 →
        launch (.convertSpab order share err) l = launch (.convertSpab order share err) l' ∧
        launch (.convertSpba order share err) l = launch (.convertSpba order share err) l' ∧
        (l.dst2 = l'.dst2 → launch (.convertP420 order share err) l = launch (.convertP420 order share err) l')) ∧
      (l.srcY = l'.srcY → l.dst0 = l'.dst0 →
        launch (.convertRgb565 order share err) l = launch (.convertRgb565 order share err) l' ∧
        launch (.convertRgb8888 order share err) l = launch (.convertRgb8888 order share err) l'))

/-- 44 R182, 60 R210: the overlay flag is set exactly for an OP 0 command with outcome OK and s + n >= H, the sum
not wrapped; leaf commands and reserved operations never set it. -/
def Obligations.OverlayExactlyOnTheLastBand : Prop :=
  ∀ (w : Word) (l : Regs),
    (launch (decode w) l).overlay = true ↔
      w &&& 0xF = 0 ∧ (launch (decode w) l).outcome = .ok ∧
        l.height.toNat ≤ l.startRow.toNat + l.rowCount.toNat

/-- The footprint of the leaf commands from START (20 R77, 40 R121, 41 R132, 42 R141, 43 R158, R161): every byte
outside the rectangle the command writes reads as before. -/
def Obligations.LeafCommandFootprint : Prop :=
  ∀ (order : Bool) (s t : State) (a : Addr), Started s →
    (exec .pcopy s = .next t → (∀ r c, r < s.latch.h → c < s.latch.w → a ≠ s.latch.dst0.at r c) →
      t.mem.read a = s.mem.read a) ∧
    (exec (.deint order) s = .next t →
      (∀ i j, i < s.latch.h / 2 → j < s.latch.w / 2 → a ≠ s.latch.dst1.at i j ∧ a ≠ s.latch.dst2.at i j) →
      t.mem.read a = s.mem.read a) ∧
    (exec .swap s = .next t → (∀ i c, i < s.latch.h / 2 → c < 2 * (s.latch.w / 2) → a ≠ s.latch.dst1.at i c) →
      t.mem.read a = s.mem.read a) ∧
    (exec (.rgb565 order) s = .next t →
      (∀ r c, r < 2 * (s.latch.h / 2) → c < 4 * (s.latch.w / 2) → a ≠ s.latch.dst0.at r c) →
      t.mem.read a = s.mem.read a) ∧
    (exec (.rgb8888 order) s = .next t →
      (∀ r c, r < 2 * (s.latch.h / 2) → c < 8 * (s.latch.w / 2) → a ≠ s.latch.dst0.at r c) →
      t.mem.read a = s.mem.read a)

/-- The footprint of the CONVERT commands from START, in rows of the whole frame (44 R184 to R188, R190). -/
def Obligations.ConvertFootprint : Prop :=
  ∀ (order share err : Bool) (s t : State) (a : Addr), Started s →
    let l := s.latch
    let luma := share = false → ∀ r c, r < l.n → c < l.w → a ≠ l.dst0.at (l.s + r) c
    (exec (.convertP420 order share err) s = .next t → luma →
      (∀ i j, i < l.n / 2 → j < l.w / 2 → a ≠ l.dst1.at (l.s / 2 + i) j ∧ a ≠ l.dst2.at (l.s / 2 + i) j) →
      t.mem.read a = s.mem.read a) ∧
    (exec (.convertSpab order share err) s = .next t → luma →
      (∀ i c, i < l.n / 2 → c < (if order = false then l.w else 2 * (l.w / 2)) → a ≠ l.dst1.at (l.s / 2 + i) c) →
      t.mem.read a = s.mem.read a) ∧
    (exec (.convertSpba order share err) s = .next t → luma →
      (∀ i c, i < l.n / 2 → c < (if order = true then l.w else 2 * (l.w / 2)) → a ≠ l.dst1.at (l.s / 2 + i) c) →
      t.mem.read a = s.mem.read a) ∧
    (exec (.convertRgb565 order share err) s = .next t →
      (∀ r c, r < 2 * (l.n / 2) → c < 4 * (l.w / 2) → a ≠ l.dst0.at (l.s + r) c) →
      t.mem.read a = s.mem.read a) ∧
    (exec (.convertRgb8888 order share err) s = .next t →
      (∀ r c, r < 2 * (l.n / 2) → c < 8 * (l.w / 2) → a ≠ l.dst0.at (l.s + r) c) →
      t.mem.read a = s.mem.read a)

/-- 70 R245: a command makes at most 6 * W * n accesses, n the row count it uses (ROW_COUNT for OP 0, else HEIGHT). -/
def Obligations.CommandAccessesAreBounded : Prop :=
  ∀ (w : Word) (l : Regs),
    (launch (decode w) l).accesses.length ≤
      6 * l.width.toNat * (if w &&& 0xF = 0 then l.rowCount.toNat else l.height.toNat)

/-! ### Commands on disjoint planes -/

/-- 40 R120, R123 d: on disjoint planes PCOPY makes every destination byte equal the source byte. -/
def Obligations.PcopyOnDisjointPlanesCopies : Prop :=
  ∀ s t : State, Started s → Disjoint (launch .pcopy s.latch).accesses → exec .pcopy s = .next t →
    ∀ r c, r < s.latch.h → c < s.latch.w →
      t.mem.read (s.latch.dst0.at r c) = s.mem.read (s.latch.srcY.at r c)

/-- 41 R134 b: from the two output planes of DEINT on disjoint planes, every source pair is recovered. -/
def Obligations.DeintOutputsRecoverTheSource : Prop :=
  ∀ (order : Bool) (s t : State), Started s → Disjoint (launch (.deint order) s.latch).accesses →
    exec (.deint order) s = .next t →
    ∀ i j, i < s.latch.h / 2 → j < s.latch.w / 2 →
      s.mem.read (s.latch.srcC.at i (2 * j)) =
        t.mem.read (if order then s.latch.dst2.at i j else s.latch.dst1.at i j) ∧
      s.mem.read (s.latch.srcC.at i (2 * j + 1)) =
        t.mem.read (if order then s.latch.dst1.at i j else s.latch.dst2.at i j)

/-- 42 R143 b, c: SWAP in place, twice, restores every byte, when no byte of the plane is written twice. -/
def Obligations.SwapInPlaceTwiceRestores : Prop :=
  ∀ s t u : State, Started s → s.latch.dst1 = s.latch.srcC → (writeSet (launch .swap s.latch).accesses).Nodup →
    exec .swap s = .next t → exec .swap t = .next u → ∀ a : Addr, u.mem.read a = s.mem.read a

/-- 43 R151, R154, R155, R158, R162 g: on disjoint planes every output pixel of RGB8888 is the packed word of its
own luma byte and its block's chroma pair, low byte first. -/
def Obligations.Rgb8888PixelsOnDisjointPlanes : Prop :=
  ∀ (order : Bool) (s t : State), Started s → Disjoint (launch (.rgb8888 order) s.latch).accesses →
    exec (.rgb8888 order) s = .next t →
    ∀ r c k, r < 2 * (s.latch.h / 2) → c < 2 * (s.latch.w / 2) → k < 4 →
      t.mem.read (s.latch.dst0.at r (4 * c + k)) =
        byteOf (pixelWord s.config .rgb8888 (s.mem.read (s.latch.srcY.at r c))
          (s.mem.read (s.latch.srcC.at (r / 2) (2 * (c / 2) + if order then 1 else 0)))
          (s.mem.read (s.latch.srcC.at (r / 2) (2 * (c / 2) + if order then 0 else 1)))) k

/-- 10 R42, 70 R247: a command is a function of the latched registers, the parameters and the bytes it reads. Two
runs that agree on these end alike and leave equal bytes wherever they write. -/
def Obligations.OutputDependsOnlyOnTheBytesRead : Prop :=
  ∀ (i : Instr) (s s' t t' : State), Started s → Started s' → s.latch = s'.latch → s.config = s'.config →
    (∀ a ∈ readSet (launch i s.latch).accesses, s.mem.read a = s'.mem.read a) →
    exec i s = .next t → exec i s' = .next t' →
    t.phase = t'.phase ∧ t.status = t'.status ∧
      ∀ a ∈ writeSet (launch i s.latch).accesses, t.mem.read a = t'.mem.read a

/-- 20 R67: a command on disjoint bytes is idempotent: run again on what it left, it changes nothing. -/
def Obligations.CommandOnDisjointBytesIsIdempotent : Prop :=
  ∀ (i : Instr) (s t u : State), Started s →
    (∀ a ∈ readSet (launch i s.latch).accesses, a ∉ writeSet (launch i s.latch).accesses) →
    exec i s = .next t → exec i t = .next u → ∀ a : Addr, u.mem.read a = t.mem.read a

/-- 44 R189, for the packed formats: a window converted as two even bands, one after the other, gives the memory
of the window converted by one command. -/
def Obligations.PackedBandsTileTheWindow : Prop :=
  ∀ (order share : Bool) (s : State) (a b : Nat), s.latch.startRow.toNat % 2 = 0 → a % 2 = 0 →
    s.latch.startRow.toNat + a < 2 ^ 32 → s.latch.rowCount.toNat = a + b → Started s →
    let first := { s with latch := { s.latch with rowCount := BitVec.ofNat 32 a } }
    let second (m : Memory) := { s with mem := m, latch := { s.latch with startRow := s.latch.startRow + BitVec.ofNat 32 a, rowCount := BitVec.ofNat 32 b } }
    (∀ t u v, exec (.convertRgb565 order share false) s = .next t →
      exec (.convertRgb565 order share false) first = .next u →
      exec (.convertRgb565 order share false) (second u.mem) = .next v → v.mem = t.mem) ∧
    (∀ t u v, exec (.convertRgb8888 order share false) s = .next t →
      exec (.convertRgb8888 order share false) first = .next u →
      exec (.convertRgb8888 order share false) (second u.mem) = .next v → v.mem = t.mem)

/-! ### Colour arithmetic -/

/-- 43 R152, R153 a to c, e: each delta is the floor of the whole product, or of the sum of the two products, over
8192. -/
def Obligations.DeltasAreFloorsOfTheProducts : Prop :=
  ∀ (cfg : Config) (cb cr : Byte),
    let u : Int := (cb.toNat : Int) - 128
    let v : Int := (cr.toNat : Int) - 128
    let isFloor (d x : Int) := 8192 * d ≤ x ∧ x < 8192 * d + 8192
    isFloor (deltaB cfg cb) (u * cfg.coeff4.toInt) ∧
    isFloor (deltaG cfg cb cr) (u * cfg.coeff2.toInt + v * cfg.coeff3.toInt) ∧
    isFloor (deltaR cfg cr) (v * cfg.coeff1.toInt)

/-- 43 R153 d: every delta lies within -1024 .. 1024, for every value of the coefficients. -/
def Obligations.DeltasLieWithin1024 : Prop :=
  ∀ (cfg : Config) (cb cr : Byte), ∀ d ∈ [deltaR cfg cr, deltaG cfg cb cr, deltaB cfg cb], -1024 ≤ d ∧ d ≤ 1024

/-- 43 R154, as it shows in the RGB8888 word of a pixel: each of R (byte 2), G (byte 1) and B (byte 0) is the luma
sample plus its delta, clipped to 0 .. 255 after the sum. -/
def Obligations.ChannelsAreTheClippedSums : Prop :=
  ∀ (cfg : Config) (y cb cr : Byte),
    let w := pixelWord cfg .rgb8888 y cb cr
    let clip (v : Int) : Int := if v < 0 then 0 else if v > 255 then 255 else v
    ((byteOf w 2).toNat : Int) = clip ((y.toNat : Int) + deltaR cfg cr) ∧
    ((byteOf w 1).toNat : Int) = clip ((y.toNat : Int) + deltaG cfg cb cr) ∧
    ((byteOf w 0).toNat : Int) = clip ((y.toNat : Int) + deltaB cfg cb)

/-- 43 R156: the RGB565 word of three channels, and that a pixel's word is that of its three channels. -/
def Obligations.Rgb565WordFields : Prop :=
  (∀ r g b : Byte, (pack565 r g b).toNat = (r.toNat / 8) * 2 ^ 11 + (g.toNat / 4) * 2 ^ 5 + b.toNat / 8) ∧
  ∀ (cfg : Config) (y cb cr : Byte),
    (pixelWord cfg .rgb565 y cb cr).toNat =
      ((channel y (deltaR cfg cr)).toNat / 8) * 2 ^ 11 + ((channel y (deltaG cfg cb cr)).toNat / 4) * 2 ^ 5 +
        (channel y (deltaB cfg cb)).toNat / 8

/-- 43 R157: the RGB8888 word of three channels, its top byte zero. -/
def Obligations.Rgb8888WordFields : Prop :=
  (∀ r g b : Byte, (pack8888 r g b).toNat = r.toNat * 2 ^ 16 + g.toNat * 2 ^ 8 + b.toNat) ∧
  ∀ (cfg : Config) (y cb cr : Byte), byteOf (pixelWord cfg .rgb8888 y cb cr) 3 = 0

/-- 20 R64, R65: a word of n bytes (n at most 4) is stored low byte first at any address, and no other byte changes. -/
def Obligations.WordsAreStoredLowByteFirst : Prop :=
  ∀ (m : Memory) (a : Addr) (n : Nat) (w : Word), n ≤ 4 →
    (∀ k, k < n → (m.writeWord a n w).read (a + BitVec.ofNat 32 k) = w.extractLsb' (8 * k) 8) ∧
    (∀ b, (∀ k, k < n → b ≠ a + BitVec.ofNat 32 k) → (m.writeWord a n w).read b = m.read b)

/-! ### The overlay -/

/-- 10 R35, R38, 60 R211: a command that ends in OVLWAIT has `ovl_req` = 1 and STATUS 0x05, and the bundle shows
the latched FMT, destination bases and strides, WIDTH and HEIGHT. -/
def Obligations.RequestShowsTheLatchedFrame : Prop :=
  ∀ (i : Instr) (s t : State), exec i s = .next t → t.phase = .ovlWait →
    t.status = 0x05 ∧ t.ovlReq = true ∧ t.done = false ∧
    t.ovlOutputs = { fmt := s.latch.cmd.extractLsb' 4 3, dst0Base := s.latch.dst0Base, dst1Base := s.latch.dst1Base, dst2Base := s.latch.dst2Base, dst0Stride := s.latch.dst0Stride, dst1Stride := s.latch.dst1Stride, dst2Stride := s.latch.dst2Stride, width := s.latch.width, height := s.latch.height }

/-- 10 R39, 60 R212, R213: in OVLWAIT with `ovl_ack` = 1 the phase becomes IDLE and STATUS 0x1A, nothing else changes;
in IDLE `ovl_ack` is ignored. The action ACK (30 R103) does the same in OVLWAIT after the bytes of its draw, each plain
memory inside the destination frame, are written in order; in IDLE it passes. That ACK writes and acknowledges in one
step is the model's form of it (notes/assumptions/13.md). -/
def Obligations.AcknowledgeCompletesTheCommand : Prop :=
  ∀ s : State, s.resetPin = false →
    (s.ovlAck = true → s.env = [] →
      (s.phase = .ovlWait → step s = .next { s.tick with phase := .idle, status := 0x0000001A }) ∧
      (s.phase = .idle → step s = .next s.tick)) ∧
    (∀ draw es, s.env = .ack draw :: es →
      (s.phase = .ovlWait → (∀ d ∈ draw, backed s.config d.1 = true ∧ s.latch.inFrame d.1 = true) →
        step s = .next { s.tick with env := es, phase := .idle, status := 0x0000001A, mem := draw.foldl (fun m d => m.write d.1 d.2) s.mem }) ∧
      (s.phase = .idle → step s = .next { s.tick with env := es }))

/-- 60 R214: without an acknowledge the engine stays in OVLWAIT through any number of its steps and any register
writes; STATUS, registers and memory stay. -/
def Obligations.WaitsForEverWithoutAcknowledge : Prop :=
  ∀ (s : State) (acts : List Event), s.phase = .ovlWait → s.resetPin = false → s.ovlAck = false →
    s.env = acts → (∀ e ∈ acts, e = .engine ∨ ∃ r v, e = wr r v) →
    core.run acts.length s = .next { s with env := [], freeCount := s.freeCount + acts.length }

/-- 60 R213, 70 R242: a write of the OVERLAY agent to plain memory is taken exactly while its request stands and
inside the destination frame, and changes that byte only; any other is refused by name. The draw of an ACK stops at its
first byte that is not taken: refused as outside the frame, or as no plain memory. The refusals, and that the request
stands until the engine observes the acknowledge, are the model's choices (notes/assumptions/10.md, 8.md). -/
def Obligations.OverlayWritesOnlyItsFrame : Prop :=
  (∀ (s : State) (a : Addr) (v : Byte) (es : List Event), s.env = .mem .overlay a (some v) :: es →
    backed s.config a = true →
    (s.phase = .ovlWait ∧ s.latch.inFrame a = true →
      ∃ m, step s = .next { s.tick with env := es, mem := m } ∧ m.read a = v ∧
        ∀ b, b ≠ a → m.read b = s.mem.read b) ∧
    (¬ (s.phase = .ovlWait ∧ s.latch.inFrame a = true) → step s = .refused .overlayWriteOutsideFrame)) ∧
  ∀ (s : State) (good rest : List (Addr × Byte)) (a : Addr) (v : Byte) (es : List Event),
    s.env = .ack (good ++ (a, v) :: rest) :: es → s.phase = .ovlWait →
    (∀ d ∈ good, backed s.config d.1 = true ∧ s.latch.inFrame d.1 = true) →
    (backed s.config a = true → s.latch.inFrame a = false → step s = .refused .overlayWriteOutsideFrame) ∧
    (backed s.config a = false → step s = .refused .unbackedAccess)

/-! ### The whole machine -/

/-- 10 R37, R38: the engine's steps, one access each and then the end of BUSY, make up `exec`, from any point of the
command's progress. That the end of BUSY is a step of its own, so that k accesses take k + 1 steps, is the model's
reading (notes/assumptions/22.md); `exec` as the whole command is its choice (3.md). -/
def Obligations.EngineStepsMakeTheWholeCommand : Prop :=
  ∀ (s t : State), s.phase = .busy → s.resetPin = false → exec s.command s = .next t →
    s.env = List.replicate ((s.current (launch s.command s.latch)).pending.length + 1) .engine →
    core.run ((s.current (launch s.command s.latch)).pending.length + 1) s =
      .next { t with env := [], freeCount := s.freeCount + (s.current (launch s.command s.latch)).pending.length + 1 }

/-- 20 R79, 70 R238: when the other agents keep their hands off the command's bytes, the interleaving of their
memory writes with the engine's steps does not change what the command leaves in the bytes it writes. The engine's
actions are as many as its accesses and one more, the end of BUSY (notes/assumptions/22.md). -/
def Obligations.HandsOffRunEqualsRunAlone : Prop :=
  ∀ (s t u : State), s.phase = .busy → s.resetPin = false → Started s →
    (∀ e ∈ s.env, e = .engine ∨ ∃ who a v, e = .mem who a (some v) ∧ handsOff (launch s.command s.latch).accesses e = true) →
    s.env.count .engine = (launch s.command s.latch).accesses.length + 1 →
    exec s.command s = .next t → core.run s.env.length s = .next u →
    u.phase = t.phase ∧ u.status = t.status ∧
      ∀ a ∈ writeSet (launch s.command s.latch).accesses, u.mem.read a = t.mem.read a

/-- Every step keeps memory in its canonical form. -/
def Obligations.StepKeepsMemoryCanonical : Prop :=
  ∀ s t : State, s.mem.wf = true → step s = .next t → t.mem.wf = true

/-- Every step keeps the engine's invariant: STATUS has a value of 10 R32 that agrees with the phase (R34), the
latch equals the registers outside IDLE (R40), progress is a final part of the access sequence (R41), CMD holds no
reserved bit (R27), `reset` holds the reset state (70 R230). -/
def Obligations.StepKeepsTheEngineCoherent : Prop :=
  ∀ s t : State, Coherent s → step s = .next t → Coherent t

/-- The reset state meets both invariants. -/
def Obligations.ResetIsCoherentAndCanonical : Prop := Coherent State.reset ∧ State.reset.mem.wf = true

/-- 10 R34, R35: in a coherent state the phase is readable as STATUS bits 0 and 2, and OUTCOME is 0 while DONE = 0. -/
def Obligations.PhaseIsReadableInStatus : Prop :=
  ∀ s : State, Coherent s →
    (s.phase = .idle ↔ s.busy = false) ∧ (s.phase = .busy ↔ s.busy = true ∧ s.ovlReq = false) ∧
    (s.phase = .ovlWait ↔ s.busy = true ∧ s.ovlReq = true) ∧ (s.done = false → s.outcome = 0) ∧
    (s.ovlDone = true → s.done = true)

/-- 70 R246: the engine never starts by itself: a step leaves IDLE only by a write of 1 to CTRL.START. -/
def Obligations.OnlyStartLeavesIdle : Prop :=
  ∀ s t : State, s.phase = .idle → step s = .next t → t.phase ≠ .idle →
    t.phase = .busy ∧ s.resetPin = false ∧ ∃ v es, s.env = wr .ctrl v :: es ∧ v.getLsbD 0 = true

/-- 10 R23, 70 R246: no step changes the parameters, and the read/write registers change only by a HOST write in
IDLE or by reset; the engine writes no register but STATUS. -/
def Obligations.OnlyTheHostWritesRegisters : Prop :=
  ∀ s t : State, step s = .next t →
    t.config = s.config ∧
    (t.regs ≠ s.regs →
      (s.phase = .idle ∧ ∃ r v es, s.env = wr r v :: es ∧ t.regs = s.regs.set r v) ∨
      (∃ es, s.env = .reset true :: es ∧ t.regs = Regs.zero))

/-- 20 R60, 10 R39: the engine reaches memory only while the phase is BUSY. Outside BUSY a step changes memory only by
another agent's byte write, or by the bytes of an overlay draw, each plain memory inside the destination frame, and then
memory is exactly what those writes make it; and a step of the engine there neither reads nor writes memory: on any
other memory it does the same and leaves that memory as it is. -/
def Obligations.EngineReachesMemoryOnlyWhileBusy : Prop :=
  ∀ s t : State, s.phase ≠ .busy → step s = .next t →
    (t.mem ≠ s.mem →
      (∃ who a v es, s.env = .mem who a (some v) :: es ∧ t.mem = s.mem.write a v) ∨
      (∃ draw es, s.env = .ack draw :: es ∧ s.phase = .ovlWait ∧
        (∀ d ∈ draw, backed s.config d.1 = true ∧ s.latch.inFrame d.1 = true) ∧
        t.mem = draw.foldl (fun m d => m.write d.1 d.2) s.mem)) ∧
    ((s.env = [] ∨ ∃ es, s.env = .engine :: es) →
      t.mem = s.mem ∧ ∀ m : Memory, step { s with mem := m } = .next { t with mem := m })
end

