-- ==== Sys2Proof/Laws/Memory.lean ====
section
/-! SUPPORT. The laws of memory: a read after a write, the canonical form kept by every operation, and equal reads meaning equal canonical memories. -/

namespace Sys2Proof.Laws

open Sys2Proof.Machine

theorem addr_ne_toNat {a b : Addr} (h : a ≠ b) : a.toNat ≠ b.toNat := fun e => h (BitVec.eq_of_toNat_eq e)

theorem erase_cons (c : Host.Cell) (m : Memory) (a : Addr) :
    Memory.erase (c :: m) a = if c.1 = a.toNat then m.erase a else c :: m.erase a := by
  by_cases h : c.1 = a.toNat <;> simp [Memory.erase, h]

theorem read_erase_same (m : Memory) (a : Addr) : (m.erase a).read a = Memory.unlisted := by
  induction m with
  | nil => rfl
  | cons c m ih =>
    rw [erase_cons]
    split
    · exact ih
    · rename_i h; simp only [Memory.read, h, if_false, ih]

theorem read_erase_ne (m : Memory) {a b : Addr} (h : b ≠ a) : (m.erase a).read b = m.read b := by
  induction m with
  | nil => rfl
  | cons c m ih =>
    rw [erase_cons]
    split
    · rename_i hc
      simp only [Memory.read, ih, hc, (addr_ne_toNat h).symm, if_false]
    · simp only [Memory.read, ih]

theorem read_insert_same (m : Memory) (a : Addr) (v : Byte) (h : ∀ c ∈ m, c.1 ≠ a.toNat) :
    (m.insert a v).read a = v := by
  induction m with
  | nil => simp [Memory.insert, Memory.read]
  | cons c m ih =>
    simp only [Memory.insert]
    split
    · simp [Memory.read]
    · simp only [Memory.read, h c (by simp), if_false]
      exact ih fun d hd => h d (by simp [hd])

theorem read_insert_ne (m : Memory) {a b : Addr} (v : Byte) (h : b ≠ a) : (m.insert a v).read b = m.read b := by
  have hb : ¬ a.toNat = b.toNat := fun e => addr_ne_toNat h e.symm
  induction m with
  | nil => simp [Memory.insert, Memory.read, hb]
  | cons c m ih =>
    simp only [Memory.insert]
    split
    · simp [Memory.read, hb]
    · simp only [Memory.read, ih]

/-- A read after a write to the same address gives the byte written (20_memory.md R67). -/
@[simp] theorem read_write_same (m : Memory) (a : Addr) (v : Byte) : (m.write a v).read a = v := by
  unfold Memory.write
  split
  · rename_i h; rw [read_erase_same, h]
  · refine read_insert_same _ _ _ fun c hc => ?_
    simpa [Memory.erase] using (List.mem_filter.1 hc).2

/-- A write changes that byte only (R67). -/
theorem read_write_ne (m : Memory) {a b : Addr} (v : Byte) (h : b ≠ a) : (m.write a v).read b = m.read b := by
  unfold Memory.write
  split
  · exact read_erase_ne m h
  · rw [read_insert_ne _ _ h, read_erase_ne m h]

theorem read_write (m : Memory) (a b : Addr) (v : Byte) : (m.write a v).read b = if b = a then v else m.read b := by
  split
  · rename_i h; rw [h, read_write_same]
  · rename_i h; exact read_write_ne m v h

/-! The canonical form. -/

theorem wf_iff (m : Memory) : m.wf = true ↔
    m.Pairwise (fun c d => c.1 < d.1) ∧ ∀ c ∈ m, c.1 < 4294967296 ∧ c.2 ≠ Memory.unlisted := by
  simp [Memory.wf]

theorem wf_nil : Memory.wf [] = true := by decide

theorem erase_wf (m : Memory) (a : Addr) (h : m.wf = true) : (m.erase a).wf = true := by
  rw [wf_iff] at h ⊢
  exact ⟨h.1.filter _, fun c hc => h.2 c (List.mem_filter.1 hc).1⟩

theorem mem_insert {m : Memory} {a : Addr} {v : Byte} {c : Host.Cell} (h : c ∈ m.insert a v) :
    c = (a.toNat, v) ∨ c ∈ m := by
  induction m with
  | nil => simpa [Memory.insert] using h
  | cons d m ih =>
    simp only [Memory.insert] at h
    split at h
    · simpa using h
    · rcases List.mem_cons.1 h with h | h
      · exact .inr (by simp [h])
      · rcases ih h with h | h
        · exact .inl h
        · exact .inr (by simp [h])

theorem insert_wf (m : Memory) (a : Addr) (v : Byte) (h : m.wf = true) (hv : v ≠ Memory.unlisted)
    (ha : ∀ c ∈ m, c.1 ≠ a.toNat) : (m.insert a v).wf = true := by
  rw [wf_iff] at h ⊢
  refine ⟨?_, fun c hc => ?_⟩
  · replace h := h.1
    induction m with
    | nil => simp [Memory.insert]
    | cons d m ih =>
      have hp := List.pairwise_cons.1 h
      simp only [Memory.insert]
      split
      · rename_i hlt
        refine List.pairwise_cons.2 ⟨fun c hc => ?_, h⟩
        rcases List.mem_cons.1 hc with rfl | hc
        · exact hlt
        · exact Nat.lt_trans hlt (hp.1 c hc)
      · rename_i hlt
        refine List.pairwise_cons.2 ⟨fun c hc => ?_, ih (fun c hc => ha c (by simp [hc])) hp.2⟩
        rcases mem_insert hc with rfl | hc
        · have := ha d (by simp)
          simp only
          omega
        · exact hp.1 c hc
  · rcases mem_insert hc with rfl | hc
    · exact ⟨a.isLt, hv⟩
    · exact h.2 c hc

/-- Every write keeps the canonical form. -/
theorem write_wf (m : Memory) (a : Addr) (v : Byte) (h : m.wf = true) : (m.write a v).wf = true := by
  unfold Memory.write
  split
  · exact erase_wf m a h
  · rename_i hv
    refine insert_wf _ _ _ (erase_wf m a h) hv fun c hc => ?_
    simpa [Memory.erase] using (List.mem_filter.1 hc).2

theorem read_of_lt (m : Memory) (a : Addr) (h : ∀ c ∈ m, a.toNat < c.1) : m.read a = Memory.unlisted := by
  induction m with
  | nil => rfl
  | cons c m ih =>
    have := h c (by simp)
    simp only [Memory.read, show ¬ c.1 = a.toNat by omega, if_false]
    exact ih fun d hd => h d (by simp [hd])

/-- Canonical memories that read alike at every address are the same list. -/
theorem eq_of_read_eq {m m' : Memory} (h : m.wf = true) (h' : m'.wf = true) (hr : ∀ a : Addr, m.read a = m'.read a) :
    m = m' := by
  rw [wf_iff] at h h'
  have addrOf : ∀ k, k < 4294967296 → (BitVec.ofNat 32 k).toNat = k := fun k hk => by
    simpa using Nat.mod_eq_of_lt hk
  -- the head of a canonical memory is read back at its own address
  have headRead : ∀ (c : Host.Cell) (t : Memory), c.1 < 4294967296 →
      Memory.read (c :: t) (BitVec.ofNat 32 c.1) = c.2 := fun c t hc => by simp [Memory.read, Nat.mod_eq_of_lt hc]
  induction m generalizing m' with
  | nil =>
    cases m' with
    | nil => rfl
    | cons c t =>
      have hc := h'.2 c (by simp)
      exact absurd ((headRead c t hc.1).symm.trans (hr _).symm) hc.2
  | cons c t ih =>
    have hc := h.2 c (by simp)
    have hp := List.pairwise_cons.1 h.1
    cases m' with
    | nil => exact absurd ((headRead c t hc.1).symm.trans (hr _)) hc.2
    | cons c' t' =>
      have hc' := h'.2 c' (by simp)
      have hp' := List.pairwise_cons.1 h'.1
      have key : c.1 = c'.1 := by
        by_contra hne
        rcases Nat.lt_or_gt_of_ne hne with hlt | hlt
        · have := hr (BitVec.ofNat 32 c.1)
          rw [headRead c t hc.1, read_of_lt (c' :: t')] at this
          · exact hc.2 this
          · intro d hd
            rw [addrOf _ hc.1]
            rcases List.mem_cons.1 hd with rfl | hd
            · exact hlt
            · exact Nat.lt_trans hlt (hp'.1 d hd)
        · have := hr (BitVec.ofNat 32 c'.1)
          rw [headRead c' t' hc'.1, read_of_lt (c :: t)] at this
          · exact hc'.2 this.symm
          · intro d hd
            rw [addrOf _ hc'.1]
            rcases List.mem_cons.1 hd with rfl | hd
            · exact hlt
            · exact Nat.lt_trans hlt (hp.1 d hd)
      have val : c.2 = c'.2 := by
        have := hr (BitVec.ofNat 32 c.1)
        rwa [headRead c t hc.1, key, headRead c' t' hc'.1] at this
      have hcc : c = c' := Prod.ext key val
      subst hcc
      congr 1
      refine ih ⟨hp.2, fun d hd => h.2 d (by simp [hd])⟩ ⟨hp'.2, fun d hd => h'.2 d (by simp [hd])⟩ fun a => ?_
      have := hr a
      simp only [Memory.read] at this
      by_cases ha : c.1 = a.toNat
      · rw [read_of_lt t a fun d hd => ha ▸ hp.1 d hd, read_of_lt t' a fun d hd => ha ▸ hp'.1 d hd]
      · simpa [ha] using this

/-- The bytes of a multi-byte store and nothing else (00_scope.md R12, `MemWrite`), for a word of at most 4 bytes. -/
theorem writeWord_wf (m : Memory) (a : Addr) (n : Nat) (v : Word) (h : m.wf = true) : (m.writeWord a n v).wf = true := by
  induction n with
  | zero => exact h
  | succ n ih => exact write_wf _ _ _ ih

end Sys2Proof.Laws
end

