-- ==== Sys2Proof/Laws/State.lean ====
section
/-! SUPPORT. The fields of a state after each update of it: one lemma per field and update, so that no later proof unfolds a record update. -/

namespace Sys2Proof.Laws

open Sys2Proof.Machine

variable (s : State)

/-! `tick` -/
@[simp] theorem tick_config : s.tick.config = s.config := rfl
@[simp] theorem tick_regs : s.tick.regs = s.regs := rfl
@[simp] theorem tick_status : s.tick.status = s.status := rfl
@[simp] theorem tick_phase : s.tick.phase = s.phase := rfl
@[simp] theorem tick_latch : s.tick.latch = s.latch := rfl
@[simp] theorem tick_progress : s.tick.progress = s.progress := rfl
@[simp] theorem tick_mem : s.tick.mem = s.mem := rfl
@[simp] theorem tick_resetPin : s.tick.resetPin = s.resetPin := rfl
@[simp] theorem tick_ovlAck : s.tick.ovlAck = s.ovlAck := rfl
@[simp] theorem tick_readData : s.tick.readData = s.readData := rfl
@[simp] theorem tick_env : s.tick.env = s.env := rfl
@[simp] theorem tick_freeCount : s.tick.freeCount = s.freeCount + 1 := rfl

/-! `startCommand` -/
@[simp] theorem startCommand_config : (startCommand s).config = s.config := rfl
@[simp] theorem startCommand_regs : (startCommand s).regs = s.regs := rfl
@[simp] theorem startCommand_status : (startCommand s).status = statusStarted := rfl
@[simp] theorem startCommand_phase : (startCommand s).phase = .busy := rfl
@[simp] theorem startCommand_latch : (startCommand s).latch = s.regs := rfl
@[simp] theorem startCommand_progress : (startCommand s).progress = none := rfl
@[simp] theorem startCommand_mem : (startCommand s).mem = s.mem := rfl
@[simp] theorem startCommand_resetPin : (startCommand s).resetPin = s.resetPin := rfl
@[simp] theorem startCommand_ovlAck : (startCommand s).ovlAck = s.ovlAck := rfl
@[simp] theorem startCommand_readData : (startCommand s).readData = s.readData := rfl
@[simp] theorem startCommand_env : (startCommand s).env = s.env := rfl
@[simp] theorem startCommand_freeCount : (startCommand s).freeCount = s.freeCount := rfl

/-! `acknowledge` -/
@[simp] theorem acknowledge_config : (acknowledge s).config = s.config := rfl
@[simp] theorem acknowledge_regs : (acknowledge s).regs = s.regs := rfl
@[simp] theorem acknowledge_status : (acknowledge s).status = statusAcknowledged := rfl
@[simp] theorem acknowledge_phase : (acknowledge s).phase = .idle := rfl
@[simp] theorem acknowledge_latch : (acknowledge s).latch = s.latch := rfl
@[simp] theorem acknowledge_progress : (acknowledge s).progress = s.progress := rfl
@[simp] theorem acknowledge_mem : (acknowledge s).mem = s.mem := rfl
@[simp] theorem acknowledge_resetPin : (acknowledge s).resetPin = s.resetPin := rfl
@[simp] theorem acknowledge_ovlAck : (acknowledge s).ovlAck = s.ovlAck := rfl
@[simp] theorem acknowledge_readData : (acknowledge s).readData = s.readData := rfl
@[simp] theorem acknowledge_env : (acknowledge s).env = s.env := rfl
@[simp] theorem acknowledge_freeCount : (acknowledge s).freeCount = s.freeCount := rfl

/-! `enterReset` -/
@[simp] theorem enterReset_config : (enterReset s).config = s.config := rfl
@[simp] theorem enterReset_regs : (enterReset s).regs = Regs.zero := rfl
@[simp] theorem enterReset_status : (enterReset s).status = 0 := rfl
@[simp] theorem enterReset_phase : (enterReset s).phase = .idle := rfl
@[simp] theorem enterReset_latch : (enterReset s).latch = Regs.zero := rfl
@[simp] theorem enterReset_progress : (enterReset s).progress = none := rfl
@[simp] theorem enterReset_mem : (enterReset s).mem = s.mem := rfl
@[simp] theorem enterReset_resetPin : (enterReset s).resetPin = s.resetPin := rfl
@[simp] theorem enterReset_ovlAck : (enterReset s).ovlAck = s.ovlAck := rfl
@[simp] theorem enterReset_readData : (enterReset s).readData = s.readData := rfl
@[simp] theorem enterReset_env : (enterReset s).env = s.env := rfl
@[simp] theorem enterReset_freeCount : (enterReset s).freeCount = s.freeCount := rfl

/-! `endBusy`: what it never touches, what it always clears, and the two ways it ends (10_state.md R38) -/
@[simp] theorem endBusy_config (code : OutcomeCode) (overlay : Bool) : (endBusy code overlay s).config = s.config := by
  cases overlay <;> rfl
@[simp] theorem endBusy_regs (code : OutcomeCode) (overlay : Bool) : (endBusy code overlay s).regs = s.regs := by
  cases overlay <;> rfl
@[simp] theorem endBusy_latch (code : OutcomeCode) (overlay : Bool) : (endBusy code overlay s).latch = s.latch := by
  cases overlay <;> rfl
@[simp] theorem endBusy_progress (code : OutcomeCode) (overlay : Bool) : (endBusy code overlay s).progress = none := by
  cases overlay <;> rfl
@[simp] theorem endBusy_mem (code : OutcomeCode) (overlay : Bool) : (endBusy code overlay s).mem = s.mem := by
  cases overlay <;> rfl
@[simp] theorem endBusy_resetPin (code : OutcomeCode) (overlay : Bool) : (endBusy code overlay s).resetPin = s.resetPin := by
  cases overlay <;> rfl
@[simp] theorem endBusy_ovlAck (code : OutcomeCode) (overlay : Bool) : (endBusy code overlay s).ovlAck = s.ovlAck := by
  cases overlay <;> rfl
@[simp] theorem endBusy_readData (code : OutcomeCode) (overlay : Bool) : (endBusy code overlay s).readData = s.readData := by
  cases overlay <;> rfl
@[simp] theorem endBusy_env (code : OutcomeCode) (overlay : Bool) : (endBusy code overlay s).env = s.env := by
  cases overlay <;> rfl
@[simp] theorem endBusy_freeCount (code : OutcomeCode) (overlay : Bool) : (endBusy code overlay s).freeCount = s.freeCount := by
  cases overlay <;> rfl
@[simp] theorem endBusy_phase_request (code : OutcomeCode) : (endBusy code true s).phase = .ovlWait := rfl
@[simp] theorem endBusy_phase_done (code : OutcomeCode) : (endBusy code false s).phase = .idle := rfl
@[simp] theorem endBusy_status_request (code : OutcomeCode) : (endBusy code true s).status = statusRequest := rfl
@[simp] theorem endBusy_status_done (code : OutcomeCode) : (endBusy code false s).status = statusFinished code := rfl

/-! `writeReg`: what no register write touches -/
@[simp] theorem writeReg_config (r : Reg) (v : Word) : (writeReg s r v).config = s.config := by
  unfold writeReg; split_ifs <;> rfl
@[simp] theorem writeReg_mem (r : Reg) (v : Word) : (writeReg s r v).mem = s.mem := by
  unfold writeReg; split_ifs <;> rfl
@[simp] theorem writeReg_resetPin (r : Reg) (v : Word) : (writeReg s r v).resetPin = s.resetPin := by
  unfold writeReg; split_ifs <;> rfl
@[simp] theorem writeReg_ovlAck (r : Reg) (v : Word) : (writeReg s r v).ovlAck = s.ovlAck := by
  unfold writeReg; split_ifs <;> rfl
@[simp] theorem writeReg_readData (r : Reg) (v : Word) : (writeReg s r v).readData = s.readData := by
  unfold writeReg; split_ifs <;> rfl
@[simp] theorem writeReg_env (r : Reg) (v : Word) : (writeReg s r v).env = s.env := by
  unfold writeReg; split_ifs <;> rfl
@[simp] theorem writeReg_freeCount (r : Reg) (v : Word) : (writeReg s r v).freeCount = s.freeCount := by
  unfold writeReg; split_ifs <;> rfl

/-- Outside IDLE a register write changes nothing (R25). -/
theorem writeReg_not_idle {s : State} (r : Reg) (v : Word) (h : s.phase ≠ .idle) : writeReg s r v = s := by
  simp [writeReg, h]

/-- Held in reset a register write changes nothing (70 R230). -/
theorem writeReg_held {s : State} (r : Reg) (v : Word) (h : s.resetPin = true) : writeReg s r v = s := by
  simp [writeReg, h]

/-- In IDLE a write of a register other than CTRL sets that register. -/
theorem writeReg_idle {s : State} {r : Reg} (v : Word) (hi : s.phase = .idle) (hr : s.resetPin = false) (hc : r ≠ .ctrl) :
    writeReg s r v = { s with regs := s.regs.set r v } := by
  simp [writeReg, hi, hr, hc]

/-- In IDLE a write to CTRL starts a command exactly when bit 0 is 1 (R26). -/
theorem writeReg_ctrl {s : State} (v : Word) (hi : s.phase = .idle) (hr : s.resetPin = false) :
    writeReg s .ctrl v = if v.getLsbD 0 then startCommand s else s := by
  simp [writeReg, hi, hr]

/-! `driveReset` -/
theorem driveReset_true : driveReset true s = { enterReset s with resetPin := true } := rfl
theorem driveReset_false : driveReset false s = { s with resetPin := false } := rfl
@[simp] theorem driveReset_mem (b : Bool) : (driveReset b s).mem = s.mem := by cases b <;> rfl
@[simp] theorem driveReset_config (b : Bool) : (driveReset b s).config = s.config := by cases b <;> rfl

end Sys2Proof.Laws
end

