-- ==== Sys2Proof/Laws/Command.lean ====
section
/-! SUPPORT. What running a command can do: its accesses, its end, its refusal; every meaning is `runCommand` of its launch. -/

namespace Sys2Proof.Laws

open Sys2Proof.Machine Sys2Proof.Safety

/-- Every meaning carries its launch through `runCommand`. -/
theorem exec_eq (i : Instr) (s : State) : exec i s = runCommand (launch i s.latch) s := by cases i <;> rfl

theorem current_started (l : Launch) {s : State} (h : s.progress = none) : s.current l = l.begin := by
  simp [State.current, h]

theorem current_running (l : Launch) {s : State} {p : Progress} (h : s.progress = some p) : s.current l = p := by
  simp [State.current, h]

theorem admitted_iff (cfg : Config) (p : Progress) :
    p.admitted cfg = true ↔ ∀ x ∈ p.pending, backed cfg x.addr = true := by
  simp [Progress.admitted]

/-- A meaning answers a next state exactly when every address it still accesses is plain memory, and then this one. -/
theorem runCommand_next_iff (l : Launch) (s t : State) :
    runCommand l s = .next t ↔
      (s.current l).admitted s.config = true ∧
        t = endBusy (s.current l).outcome (s.current l).overlay
          { s with mem := (performAll s.config (s.current l).pending ((s.current l).work, s.mem)).2 } := by
  unfold runCommand
  split
  · rename_i h
    simp only [Host.Outcome.next.injEq]
    exact ⟨fun e => ⟨h, e.symm⟩, fun e => e.2.symm⟩
  · rename_i h
    simp [h]

/-- The same for a command that has just been started. -/
theorem exec_started {i : Instr} {s : State} (hp : Started s) (hb : BuffersOwned i s) :
    exec i s = .next (endBusy (launch i s.latch).outcome (launch i s.latch).overlay
      { s with mem := (performAll s.config (launch i s.latch).accesses (Work.start, s.mem)).2 }) := by
  rw [exec_eq, runCommand_next_iff, current_started _ hp]
  exact ⟨(admitted_iff _ _).2 hb, rfl⟩

theorem performAll_append (cfg : Config) (xs ys : List Access) (c : Work × Memory) :
    performAll cfg (xs ++ ys) c = performAll cfg ys (performAll cfg xs c) := by
  induction xs generalizing c with
  | nil => rfl
  | cons x xs ih => exact ih _

/-- And read the other way: what a next state of a just-started command tells. -/
theorem exec_started_next {i : Instr} {s t : State} (hp : Started s) (h : exec i s = .next t) :
    BuffersOwned i s ∧ t = endBusy (launch i s.latch).outcome (launch i s.latch).overlay
      { s with mem := (performAll s.config (launch i s.latch).accesses (Work.start, s.mem)).2 } := by
  rw [exec_eq, runCommand_next_iff, current_started _ hp] at h
  exact ⟨(admitted_iff _ _).1 h.1, h.2⟩

/-- The memory it leaves. -/
theorem exec_started_mem {i : Instr} {s t : State} (hp : Started s) (h : exec i s = .next t) :
    t.mem = (performAll s.config (launch i s.latch).accesses (Work.start, s.mem)).2 := by
  obtain ⟨_, rfl⟩ := exec_started_next hp h
  exact endBusy_mem _ _ _

theorem perform_wf (cfg : Config) (x : Access) (c : Work × Memory) (h : c.2.wf = true) :
    (x.perform cfg c).2.wf = true := by
  cases x with
  | read a t => exact h
  | write a d => exact write_wf _ _ _ h

theorem performAll_wf (cfg : Config) (xs : List Access) (c : Work × Memory) (h : c.2.wf = true) :
    (performAll cfg xs c).2.wf = true := by
  induction xs generalizing c with
  | nil => exact h
  | cons x xs ih => exact ih _ (perform_wf cfg x c h)

/-- One access changes no byte but the one it writes. -/
theorem perform_frame (cfg : Config) (x : Access) (c : Work × Memory) (a : Addr) (h : x.isWrite = true → x.addr ≠ a) :
    (x.perform cfg c).2.read a = c.2.read a := by
  cases x with
  | read b t => rfl
  | write b d => exact read_write_ne _ _ (h rfl).symm

/-- Accesses change no byte outside the addresses they write. -/
theorem performAll_frame (cfg : Config) (xs : List Access) (c : Work × Memory) (a : Addr)
    (h : ∀ x ∈ xs, x.isWrite = true → x.addr ≠ a) : (performAll cfg xs c).2.read a = c.2.read a := by
  induction xs generalizing c with
  | nil => rfl
  | cons x xs ih =>
    exact (ih _ fun y hy => h y (by simp [hy])).trans (perform_frame cfg x c a (h x (by simp)))

/-- What one engine step of a running command can be (10_state.md R37, R38). -/
theorem stepCommand_cases {l : Launch} {s t : State} (h : stepCommand l s = .next t) :
    (s.current l).admitted s.config = true ∧
      (((s.current l).pending = [] ∧ t = endBusy (s.current l).outcome (s.current l).overlay s) ∨
        ∃ x xs, (s.current l).pending = x :: xs ∧
          t = { s with mem := (x.perform s.config ((s.current l).work, s.mem)).2
                       progress := some { s.current l with pending := xs, work := (x.perform s.config ((s.current l).work, s.mem)).1 } }) := by
  unfold stepCommand at h
  split at h
  · rename_i ha
    refine ⟨ha, ?_⟩
    split at h
    · rename_i hp
      exact .inl ⟨hp, (Host.Outcome.next.inj h).symm⟩
    · rename_i x xs hp
      exact .inr ⟨x, xs, hp, (Host.Outcome.next.inj h).symm⟩
  · cases h

/-- `endBusy` ends in IDLE or OVLWAIT, never in BUSY. -/
theorem endBusy_phase (code : OutcomeCode) (overlay : Bool) (s : State) :
    (endBusy code overlay s).phase = if overlay then .ovlWait else .idle := by cases overlay <;> rfl

theorem endBusy_status (code : OutcomeCode) (overlay : Bool) (s : State) :
    (endBusy code overlay s).status = if overlay then statusRequest else statusFinished code := by cases overlay <;> rfl

end Sys2Proof.Laws
end

