-- ==== Sys2Proof/Laws/Leaves.lean ====
section
/-! SUPPORT. The access sequences of the four leaf operations perform the pseudocode of their rules (40 R121, 41 R132, 42 R141, 43 R158), element by element, in the canonical order (20 R70). -/

namespace Sys2Proof.Laws

open Sys2Proof.Machine Sys2Proof.Safety

/-- A loop of access lists performs a loop over memory, if each round does, whatever the working bytes are. -/
theorem performAll_flatMap (cfg : Config) (f : Nat → List Access) (g : Nat → Memory → Memory)
    (h : ∀ k w m, (performAll cfg (f k) (w, m)).2 = g k m) (ks : List Nat) (w : Work) (m : Memory) :
    (performAll cfg (ks.flatMap f) (w, m)).2 = ks.foldl (fun m k => g k m) m := by
  induction ks generalizing w m with
  | nil => rfl
  | cons k ks ih =>
    rw [List.flatMap_cons, performAll_append, List.foldl_cons, ← h k w m]
    exact ih _ _

/-- A grid of access lists performs two nested loops. -/
theorem performAll_grid (cfg : Config) (rows cols : Nat) (f : Nat → Nat → List Access) (g : Nat → Nat → Memory → Memory)
    (h : ∀ r c w m, (performAll cfg (f r c) (w, m)).2 = g r c m) (w : Work) (m : Memory) :
    (performAll cfg (grid rows cols f) (w, m)).2 = loop rows (fun r => loop cols (fun c => g r c)) m :=
  performAll_flatMap cfg _ _ (fun r w m => performAll_flatMap cfg _ _ (fun c w m => h r c w m) _ w m) _ w m

theorem planeCopy_runs (cfg : Config) (src dst : Plane) (w h : Nat) (k : Work) (m : Memory) :
    (performAll cfg (planeCopy src dst w h) (k, m)).2 = copyPlane src dst w h m :=
  performAll_grid cfg h w _ _ (fun _ _ _ _ => rfl) k m

theorem deinterleave_runs (cfg : Config) (src dA dB : Plane) (w h : Nat) (order : Bool) (k : Work) (m : Memory) :
    (performAll cfg (deinterleave src dA dB w h order) (k, m)).2 = splitPlane src dA dB w h order m :=
  performAll_grid cfg _ _ _ _ (fun _ _ _ _ => rfl) k m

theorem swapPairs_runs (cfg : Config) (src dst : Plane) (w h : Nat) (k : Work) (m : Memory) :
    (performAll cfg (swapPairs src dst w h) (k, m)).2 = swapPlane src dst w h m :=
  performAll_grid cfg _ _ _ _ (fun _ _ _ _ => rfl) k m

/-- The byte stores of a pixel are one `MemWrite` of its word. -/
theorem storePixel_runs (cfg : Config) (kind : PixelKind) (a : Addr) (k : Work) (m : Memory) :
    performAll cfg (storePixel kind a) (k, m) =
      (k, m.writeWord a kind.bytes (pixelWord cfg kind k.luma k.cb k.cr)) := by
  cases kind <;> rfl

/-- One pixel: the luma read, then the store; the chroma pair stays in the working bytes. -/
theorem convertPixel_runs (cfg : Config) (kind : PixelKind) (y d : Plane) (row col : Nat) (k : Work) (m : Memory) :
    performAll cfg (convertPixel kind y d row col) (k, m) =
      ({ k with luma := m.read (y.at row col) },
        m.writeWord (d.at row (col * kind.bytes)) kind.bytes (pixelWord cfg kind (m.read (y.at row col)) k.cb k.cr)) :=
  storePixel_runs cfg kind _ { k with luma := m.read (y.at row col) } m

/-- The two chroma reads of a block. -/
theorem chromaReads_run (cfg : Config) (a b : Addr) (k : Work) (m : Memory) :
    performAll cfg [.read a .cb, .read b .cr] (k, m) = ({ k with cb := m.read a, cr := m.read b }, m) := rfl

theorem yuvToRgb_runs (cfg : Config) (kind : PixelKind) (y c d : Plane) (w h : Nat) (order : Bool) (k : Work) (m : Memory) :
    (performAll cfg (yuvToRgb kind y c d w h order) (k, m)).2 = convertPlane cfg kind y c d w h order m := by
  refine performAll_grid cfg _ _ _ _ (fun i j k m => ?_) k m
  simp only [convertBlock, performAll_append, chromaReads_run, convertPixel_runs]
  rfl

end Sys2Proof.Laws
end

