-- ==== Sys2Proof/Laws/Access.lean ====
section
/-! SUPPORT. Access sequences as data: what a sequence reads and writes, element addresses and window planes (20_memory.md R62, 44_format_dispatcher.md R175), and the one fact behind every claim about two runs: a sequence depends on nothing but the bytes it reads. -/

namespace Sys2Proof.Laws

open Sys2Proof.Machine Sys2Proof.Safety

theorem readSet_append (xs ys : List Access) : readSet (xs ++ ys) = readSet xs ++ readSet ys := by simp [readSet]

theorem writeSet_append (xs ys : List Access) : writeSet (xs ++ ys) = writeSet xs ++ writeSet ys := by simp [writeSet]

theorem readSet_flatMap (ks : List Nat) (f : Nat → List Access) :
    readSet (ks.flatMap f) = ks.flatMap fun k => readSet (f k) := by
  induction ks with
  | nil => rfl
  | cons k ks ih => rw [List.flatMap_cons, readSet_append, ih, List.flatMap_cons]

theorem writeSet_flatMap (ks : List Nat) (f : Nat → List Access) :
    writeSet (ks.flatMap f) = ks.flatMap fun k => writeSet (f k) := by
  induction ks with
  | nil => rfl
  | cons k ks ih => rw [List.flatMap_cons, writeSet_append, ih, List.flatMap_cons]

theorem readSet_grid (rows cols : Nat) (f : Nat → Nat → List Access) :
    readSet (grid rows cols f) = addrGrid rows cols fun r c => readSet (f r c) := by
  simp only [grid, addrGrid, readSet_flatMap]

theorem writeSet_grid (rows cols : Nat) (f : Nat → Nat → List Access) :
    writeSet (grid rows cols f) = addrGrid rows cols fun r c => writeSet (f r c) := by
  simp only [grid, addrGrid, writeSet_flatMap]

theorem mem_readSet {xs : List Access} {a : Addr} : a ∈ readSet xs ↔ ∃ x ∈ xs, x.isWrite = false ∧ x.addr = a := by
  simp [readSet, and_assoc]

theorem mem_writeSet {xs : List Access} {a : Addr} : a ∈ writeSet xs ↔ ∃ x ∈ xs, x.isWrite = true ∧ x.addr = a := by
  simp [writeSet, and_assoc]

theorem mem_addrGrid {rows cols : Nat} {f : Nat → Nat → List Addr} {a : Addr} :
    a ∈ addrGrid rows cols f ↔ ∃ r, r < rows ∧ ∃ c, c < cols ∧ a ∈ f r c := by
  simp [addrGrid]

/-- Every round of a grid has `k` accesses, so the grid has rows times columns times `k`. -/
theorem length_grid {rows cols k : Nat} {f : Nat → Nat → List Access} (h : ∀ r c, (f r c).length = k) :
    (grid rows cols f).length = rows * cols * k := by
  simp [grid, List.length_flatMap, h, Nat.mul_assoc]

/-- A grid of `a + b` rows is the grid of its first `a` rows and then that of its last `b`. -/
theorem grid_add (a b cols : Nat) (f : Nat → Nat → List Access) :
    grid (a + b) cols f = grid a cols f ++ grid b cols fun r => f (a + r) := by
  simp [grid, List.range_add, List.flatMap_append, List.flatMap_map]

theorem at_add (p : Plane) (r c k : Nat) : p.at r c + BitVec.ofNat 32 k = p.at r (c + k) := by
  simp [Plane.at, BitVec.ofNat_add, BitVec.add_assoc]

/-- Row `r` of a plane advanced by `n` rows is row `n + r` of the plane (44 R175). -/
theorem advance_at (p : Plane) (n r c : Nat) : (p.advance n).at r c = p.at (n + r) c := by
  simp [Plane.at, Plane.advance, BitVec.ofNat_add, BitVec.add_mul, BitVec.add_assoc]

theorem oddStart_iff (r : Regs) : r.oddStart = true ↔ r.startRow.toNat % 2 = 1 := by
  simp [Regs.oddStart, BitVec.getLsbD, Nat.testBit_zero]

theorem oddStart_of_even {r : Regs} (h : r.startRow.toNat % 2 = 0) : r.oddStart = false := by
  rw [← Bool.not_eq_true, oddStart_iff]
  omega

/-- Accesses outside an address set leave its bytes alone; the form of `performAll_frame` that speaks of `writeSet`. -/
theorem performAll_read_of_not_mem (cfg : Config) {xs : List Access} (c : Work × Memory) {a : Addr}
    (h : a ∉ writeSet xs) : (performAll cfg xs c).2.read a = c.2.read a :=
  performAll_frame cfg xs c a fun x hx hw he => h (mem_writeSet.2 ⟨x, hx, hw, he⟩)

/-- Two runs of one sequence from equal working bytes, on memories that agree wherever the sequence reads: the
working bytes stay equal, and the memories agree wherever they agreed before or the sequence writes. -/
theorem performAll_agree (cfg : Config) (xs : List Access) (w : Work) (m m' : Memory)
    (h : ∀ a ∈ readSet xs, m.read a = m'.read a) :
    (performAll cfg xs (w, m)).1 = (performAll cfg xs (w, m')).1 ∧
      ∀ a, a ∈ writeSet xs ∨ m.read a = m'.read a →
        (performAll cfg xs (w, m)).2.read a = (performAll cfg xs (w, m')).2.read a := by
  induction xs generalizing w m m' with
  | nil => exact ⟨rfl, fun a ha => ha.elim (fun hn => by cases hn) id⟩
  | cons x xs ih =>
    cases x with
    | read b t =>
      have hb : m.read b = m'.read b := h b (by simp [readSet, Access.isWrite, Access.addr])
      simp only [performAll, Access.perform, hb]
      refine (ih _ m m' fun a ha => h a ?_).imp id fun hr a ha => hr a ?_
      · simp only [readSet, List.filter_cons, Access.isWrite] at ha ⊢
        exact List.mem_cons_of_mem _ ha
      · simpa [writeSet, Access.isWrite] using ha
    | write b d =>
      simp only [performAll, Access.perform]
      refine (ih w _ _ fun a ha => ?_).imp id fun hr a ha => hr a ?_
      · have ha' := h a (by simpa [readSet, Access.isWrite] using ha)
        rw [read_write, read_write, ha']
      · by_cases hab : a = b
        · exact .inr (by rw [hab, read_write_same, read_write_same])
        · refine ha.imp (fun hw => ?_) fun he => by rw [read_write_ne _ _ hab, read_write_ne _ _ hab, he]
          exact (List.mem_cons.1 hw).resolve_left hab

theorem range_split {k n : Nat} (h : k < n) : ∃ ps qs, List.range n = ps ++ [k] ++ qs :=
  let ⟨ps, qs, e⟩ := List.append_of_mem (List.mem_range.2 h)
  ⟨ps, qs, by simpa using e⟩

/-- One element of a grid, with what comes before it and after it. -/
theorem grid_split {rows cols r c : Nat} (f : Nat → Nat → List Access) (hr : r < rows) (hc : c < cols) :
    ∃ before rest, grid rows cols f = before ++ f r c ++ rest := by
  obtain ⟨ps, qs, e⟩ := range_split hr
  obtain ⟨ps', qs', e'⟩ := range_split hc
  refine ⟨ps.flatMap (fun r => (List.range cols).flatMap fun c => f r c) ++ ps'.flatMap (fun c => f r c),
    qs'.flatMap (fun c => f r c) ++ qs.flatMap (fun r => (List.range cols).flatMap fun c => f r c), ?_⟩
  unfold grid
  rw [e]
  simp [List.flatMap_append, e']

/-- In a sequence on disjoint bytes, what an inner part writes is what that part alone writes on the memory the whole
sequence started from, and it stays. -/
theorem disjoint_part (cfg : Config) {before part rest : List Access} (hd : Safety.Disjoint (before ++ part ++ rest))
    (w : Work) (m : Memory) {a : Addr} (ha : a ∈ writeSet part) :
    ∃ w', (performAll cfg (before ++ part ++ rest) (w, m)).2.read a = (performAll cfg part (w', m)).2.read a := by
  obtain ⟨hrw, hnd⟩ := hd
  simp only [readSet_append, writeSet_append, List.mem_append] at hrw hnd
  have hnot : a ∉ writeSet rest := fun h => (List.nodup_append.1 hnd).2.2 a (List.mem_append_right _ ha) a h rfl
  rw [performAll_append, performAll_append, performAll_read_of_not_mem _ _ hnot]
  rcases hb : performAll cfg before (w, m) with ⟨w', m'⟩
  refine ⟨w', (performAll_agree cfg part w' m' m fun b hb' => ?_).2 a (.inl ha)⟩
  have := performAll_read_of_not_mem cfg (w, m) (xs := before) (a := b) fun h => hrw b (.inl (.inr hb')) (.inl (.inl h))
  rwa [hb] at this

/-! What each sequence writes. -/

theorem writeSet_convertPixel (kind : PixelKind) (y d : Plane) (r c : Nat) :
    writeSet (convertPixel kind y d r c) = (List.range kind.bytes).map fun k => d.at r (c * kind.bytes + k) := by
  have h : writeSet (convertPixel kind y d r c) =
      (List.range kind.bytes).map fun k => d.at r (c * kind.bytes) + BitVec.ofNat 32 k := by cases kind <;> rfl
  simpa [at_add] using h

theorem writeSet_convertBlock (kind : PixelKind) (y c d : Plane) (order : Bool) (i j : Nat) :
    writeSet (convertBlock kind y c d order i j) =
      writeSet (convertPixel kind y d (2 * i) (2 * j)) ++ writeSet (convertPixel kind y d (2 * i) (2 * j + 1)) ++
      writeSet (convertPixel kind y d (2 * i + 1) (2 * j)) ++ writeSet (convertPixel kind y d (2 * i + 1) (2 * j + 1)) := by
  simp only [convertBlock, writeSet_append]
  rfl

theorem mem_writeSet_planeCopy {s d : Plane} {w h : Nat} {a : Addr} (ha : a ∈ writeSet (planeCopy s d w h)) :
    ∃ r c, r < h ∧ c < w ∧ a = d.at r c := by
  rw [planeCopy, writeSet_grid, mem_addrGrid] at ha
  obtain ⟨i, hi, j, hj, ha⟩ := ha
  exact ⟨i, j, hi, hj, List.mem_singleton.1 ha⟩

theorem mem_writeSet_deinterleave {s d e : Plane} {w h : Nat} {o : Bool} {a : Addr}
    (ha : a ∈ writeSet (deinterleave s d e w h o)) :
    ∃ i j, i < h / 2 ∧ j < w / 2 ∧ (a = d.at i j ∨ a = e.at i j) := by
  rw [deinterleave, writeSet_grid, mem_addrGrid] at ha
  obtain ⟨i, hi, j, hj, ha⟩ := ha
  rw [show writeSet (splitPair s d e o i j) = [d.at i j, e.at i j] from rfl] at ha
  exact ⟨i, j, hi, hj, by simpa using ha⟩

theorem mem_writeSet_swapPairs {s d : Plane} {w h : Nat} {a : Addr} (ha : a ∈ writeSet (swapPairs s d w h)) :
    ∃ i c, i < h / 2 ∧ c < 2 * (w / 2) ∧ a = d.at i c := by
  rw [swapPairs, writeSet_grid, mem_addrGrid] at ha
  obtain ⟨i, hi, j, hj, ha⟩ := ha
  rw [show writeSet (swapPair s d i j) = [d.at i (2 * j), d.at i (2 * j + 1)] from rfl] at ha
  simp only [List.mem_cons, List.not_mem_nil, or_false] at ha
  rcases ha with rfl | rfl
  · exact ⟨i, _, hi, by omega, rfl⟩
  · exact ⟨i, _, hi, by omega, rfl⟩

theorem mem_writeSet_yuvToRgb {kind : PixelKind} {y c d : Plane} {w h : Nat} {o : Bool} {a : Addr}
    (ha : a ∈ writeSet (yuvToRgb kind y c d w h o)) :
    ∃ r k, r < 2 * (h / 2) ∧ k < 2 * (w / 2) * kind.bytes ∧ a = d.at r k := by
  rw [yuvToRgb, writeSet_grid, mem_addrGrid] at ha
  obtain ⟨i, hi, j, hj, ha⟩ := ha
  simp only [writeSet_convertBlock, writeSet_convertPixel, List.mem_append, List.mem_map, List.mem_range, or_assoc] at ha
  have key : ∀ x k : Nat, x ≤ 2 * j + 1 → k < kind.bytes → x * kind.bytes + k < 2 * (w / 2) * kind.bytes := by
    intro x k hx hk
    have h := Nat.mul_le_mul_right kind.bytes (show x + 1 ≤ 2 * (w / 2) by omega)
    rw [Nat.add_mul] at h
    omega
  rcases ha with ⟨k, hk, rfl⟩ | ⟨k, hk, rfl⟩ | ⟨k, hk, rfl⟩ | ⟨k, hk, rfl⟩ <;>
    exact ⟨_, _, by omega, key _ _ (by omega) hk, rfl⟩

/-- An address is left alone when no access of the sequence is at it. -/
theorem leavesAlone_iff {xs : List Access} {a : Addr} : leavesAlone xs a = true ↔ ∀ x ∈ xs, x.addr ≠ a := by
  simp [leavesAlone]

end Sys2Proof.Laws
end

