-- ==== Sys2Proof/Laws/PerInstr.lean ====
section
/-! SUPPORT. A fact about every command as syntax, one lemma per constructor: its word leaves the reserved bits 31:10 zero (30_encoding.md R90), so register CMD stores it whole (10_state.md R27). -/

namespace Sys2Proof.Laws.ReservedBitsZero

/-- The word of `i` has no bit above bit 9. -/
def Statement (i : Instr) : Prop := encode i &&& 0x3FF = encode i

theorem convertP420 : ∀ order share err : Bool, Statement (.convertP420 order share err) := by unfold Statement; decide
theorem convertSpab : ∀ order share err : Bool, Statement (.convertSpab order share err) := by unfold Statement; decide
theorem convertSpba : ∀ order share err : Bool, Statement (.convertSpba order share err) := by unfold Statement; decide
theorem convertRgb565 : ∀ order share err : Bool, Statement (.convertRgb565 order share err) := by unfold Statement; decide
theorem convertRgb8888 : ∀ order share err : Bool, Statement (.convertRgb8888 order share err) := by unfold Statement; decide
theorem pcopy : Statement .pcopy := by unfold Statement; decide
theorem deint : ∀ order : Bool, Statement (.deint order) := by unfold Statement; decide
theorem swap : Statement .swap := by unfold Statement; decide
theorem rgb565 : ∀ order : Bool, Statement (.rgb565 order) := by unfold Statement; decide
theorem rgb8888 : ∀ order : Bool, Statement (.rgb8888 order) := by unfold Statement; decide
theorem convertReserved5 : ∀ order share err : Bool, Statement (.convertReserved5 order share err) := by unfold Statement; decide
theorem convertReserved6 : ∀ order share err : Bool, Statement (.convertReserved6 order share err) := by unfold Statement; decide
theorem convertReserved7 : ∀ order share err : Bool, Statement (.convertReserved7 order share err) := by unfold Statement; decide
theorem reservedOp6 : Statement .reservedOp6 := by unfold Statement; decide
theorem reservedOp7 : Statement .reservedOp7 := by unfold Statement; decide
theorem reservedOp8 : Statement .reservedOp8 := by unfold Statement; decide
theorem reservedOp9 : Statement .reservedOp9 := by unfold Statement; decide
theorem reservedOp10 : Statement .reservedOp10 := by unfold Statement; decide
theorem reservedOp11 : Statement .reservedOp11 := by unfold Statement; decide
theorem reservedOp12 : Statement .reservedOp12 := by unfold Statement; decide
theorem reservedOp13 : Statement .reservedOp13 := by unfold Statement; decide
theorem reservedOp14 : Statement .reservedOp14 := by unfold Statement; decide
theorem reservedOp15 : Statement .reservedOp15 := by unfold Statement; decide

end Sys2Proof.Laws.ReservedBitsZero
end

