-- ==== Sys2Proof/Laws/Step.lean ====
section
/-! SUPPORT. The step taken apart: what it is for each kind of coming action, runs of several steps, and the one inversion lemma that lists every change a step can make. -/

namespace Sys2Proof.Laws

open Sys2Proof.Machine Sys2Proof.Safety

/-- With no action pending the step is the engine alone. -/
theorem step_alone {s : State} (h : s.env = []) : step s = engineRun s.tick := by
  simp [step, stepBody, h]

/-- With an action pending the step takes it. -/
theorem step_action {s : State} {e : Event} {es : List Event} (h : s.env = e :: es) :
    step s = act e s.tick { s.tick with env := es } := by
  simp [step, stepBody, h]

theorem offset_aligned (r : Reg) : r.offset % 4 = 0 := by cases r <;> rfl

theorem ofOffset_offset (r : Reg) : Reg.ofOffset r.offset = some r := by cases r <;> rfl

theorem offset_of_ofOffset {off : Nat} {r : Reg} (h : Reg.ofOffset off = some r) : r.offset = off := by
  unfold Reg.ofOffset at h
  split at h <;> first | (cases h; rfl) | cases h

/-- A HOST write of a register is one step of `writeReg`. -/
theorem step_wr {s : State} {r : Reg} {v : Word} {es : List Event} (h : s.env = wr r v :: es) :
    step s = .next (writeReg { s.tick with env := es } r v) := by
  simp [step_action h, act, wr, accessReg, offset_aligned, ofOffset_offset]

/-- An engine step taken as an action. -/
theorem step_engine {s : State} {es : List Event} (h : s.env = .engine :: es) :
    step s = engineStep { s.tick with env := es } := by
  simp [step_action h, act]

/-- An engine step of a running command, taken as an action. -/
theorem step_engine_busy {s : State} {es : List Event} (he : s.env = .engine :: es) (hb : s.phase = .busy)
    (hr : s.resetPin = false) :
    step s = stepCommand (launch s.command s.latch) { s.tick with env := es } := by
  rw [step_engine he]
  simp only [engineStep, tick_resetPin, hr, tick_phase, hb, Bool.false_eq_true, if_false]
  rfl

/-- The next access of an admitted command. -/
theorem stepCommand_access {s : State} {l : Launch} {x : Access} {xs : List Access}
    (ha : (s.current l).admitted s.config = true) (hx : (s.current l).pending = x :: xs) :
    stepCommand l s = .next { s with mem := (x.perform s.config ((s.current l).work, s.mem)).2
                                     progress := some { s.current l with pending := xs, work := (x.perform s.config ((s.current l).work, s.mem)).1 } } := by
  unfold stepCommand
  rw [if_pos ha, hx]

/-- No access left: the end of BUSY. -/
theorem stepCommand_finish {s : State} {l : Launch} (ha : (s.current l).admitted s.config = true)
    (hx : (s.current l).pending = []) :
    stepCommand l s = .next (endBusy (s.current l).outcome (s.current l).overlay s) := by
  unfold stepCommand
  rw [if_pos ha, hx]

theorem run_zero (s : State) : core.run 0 s = .next s := rfl

/-- A run goes on from the state its first step answers. -/
theorem run_next {s t : State} (k : Nat) (h : step s = .next t) : core.run (k + 1) s = core.run k t := by
  have h' : core.step s = .next t := h
  simp only [Host.Core.run, h']

/-- A run of several steps that answers a state answered one at each step. -/
theorem run_succ {s u : State} {k : Nat} (h : core.run (k + 1) s = .next u) :
    ∃ t, step s = .next t ∧ core.run k t = .next u := by
  cases hs : step s with
  | next t => exact ⟨t, rfl, by rwa [run_next k hs] at h⟩
  | fault f => cases f
  | refused r =>
    have h' : core.step s = .refused r := hs
    simp only [Host.Core.run, h'] at h
    cases h

/-- Two states alike in everything a rule of the engine speaks of: parameters, registers, STATUS, phase, latch,
progress and the input `reset`. -/
structure SameEngine (s t : State) : Prop where
  config : t.config = s.config
  regs : t.regs = s.regs
  status : t.status = s.status
  phase : t.phase = s.phase
  latch : t.latch = s.latch
  progress : t.progress = s.progress
  resetPin : t.resetPin = s.resetPin

/-- Every change one step can make. `s` is the state before, `t` the state after; in each case but the first and
the last two the fields not named are as before up to the model's own fields. -/
inductive Change (s : State) : State → Prop where
  /-- Nothing but signals and the model's own fields. -/
  | quiet {t : State} (h : SameEngine s t) (hm : t.mem = s.mem) : Change s t
  /-- Another agent wrote one byte. -/
  | otherWrite {t : State} (who : Agent) (a : Addr) (v : Byte) (es : List Event) (he : s.env = .mem who a (some v) :: es)
      (h : SameEngine s t) (hm : t.mem = s.mem.write a v) : Change s t
  /-- The HOST wrote a register in IDLE. -/
  | regWrite {t : State} (r : Reg) (v : Word) (es : List Event) (he : s.env = wr r v :: es) (hi : s.phase = .idle)
      (hr : s.resetPin = false) (hc : r ≠ .ctrl) (ht : t = { s.tick with env := es, regs := s.regs.set r v }) : Change s t
  /-- START (10 R36). -/
  | start {t : State} (v : Word) (es : List Event) (he : s.env = wr .ctrl v :: es) (hi : s.phase = .idle)
      (hr : s.resetPin = false) (hv : v.getLsbD 0 = true) (ht : t = startCommand { s.tick with env := es }) : Change s t
  /-- One access of the running command (R37). -/
  | access {t : State} (hb : s.phase = .busy) (hr : s.resetPin = false) (x : Access) (xs : List Access)
      (hp : (s.current (launch s.command s.latch)).pending = x :: xs)
      (ht : ∃ es, t = { s.tick with env := es
                                    mem := (x.perform s.config ((s.current (launch s.command s.latch)).work, s.mem)).2
                                    progress := some { s.current (launch s.command s.latch) with pending := xs, work := (x.perform s.config ((s.current (launch s.command s.latch)).work, s.mem)).1 } }) :
      Change s t
  /-- The end of BUSY, after the accesses still to make (R38). -/
  | finish {t : State} (hb : s.phase = .busy) (hr : s.resetPin = false) (xs : List Access)
      (hxs : xs = [] ∨ xs = (s.current (launch s.command s.latch)).pending)
      (ht : ∃ d es, t = endBusy (s.current (launch s.command s.latch)).outcome (s.current (launch s.command s.latch)).overlay
        { s.tick with readData := d, env := es
                      mem := (performAll s.config xs ((s.current (launch s.command s.latch)).work, s.mem)).2 }) :
      Change s t
  /-- The acknowledge was observed (R39), after the bytes of an overlay draw, if any, each inside the frame. -/
  | ack {t : State} (ho : s.phase = .ovlWait) (draw : List (Addr × Byte))
      (hd : draw = [] ∨ ∃ es, s.env = .ack draw :: es)
      (hf : ∀ d ∈ draw, backed s.config d.1 = true ∧ s.latch.inFrame d.1 = true)
      (hm : t.mem = draw.foldl (fun m d => m.write d.1 d.2) s.mem)
      (h : t.config = s.config ∧ t.regs = s.regs ∧ t.latch = s.latch ∧ t.progress = s.progress ∧ t.resetPin = s.resetPin)
      (hs : t.phase = .idle ∧ t.status = statusAcknowledged) : Change s t
  /-- Input `reset` was asserted or released (70 R230). -/
  | reset {t : State} (b : Bool) (es : List Event) (he : s.env = .reset b :: es)
      (ht : t = driveReset b { s.tick with env := es }) : Change s t

/-- A byte write of the OVERLAY agent is taken exactly at plain memory inside its window, and changes that byte. -/
theorem accessMem_overlay_iff (a : Addr) (v : Byte) (s t : State) :
    accessMem .overlay a (some v) s = .next t ↔
      (backed s.config a = true ∧ mayWrite s .overlay a = true) ∧ t = { s with mem := s.mem.write a v } := by
  unfold accessMem
  by_cases hb : backed s.config a = true <;> by_cases hw : mayWrite s .overlay a = true <;>
    simp [hb, hw]
  exact eq_comm

/-- The OVERLAY agent may write inside the destination frame while the engine waits for it (60 R213). -/
theorem mayWrite_overlay (s : State) (a : Addr) :
    mayWrite s .overlay a = true ↔ s.phase = .ovlWait ∧ s.latch.inFrame a = true := by
  simp [mayWrite]

/-- A draw is taken exactly when every byte of it is, and changes memory alone, byte by byte in its order. -/
theorem drawBytes_next_iff (draw : List (Addr × Byte)) (s t : State) :
    drawBytes draw s = .next t ↔
      (∀ d ∈ draw, backed s.config d.1 = true ∧ mayWrite s .overlay d.1 = true) ∧
        t = { s with mem := draw.foldl (fun m d => m.write d.1 d.2) s.mem } := by
  induction draw generalizing s with
  | nil =>
    exact ⟨fun h => ⟨fun _ hm => (nomatch hm), (Host.Outcome.next.inj h).symm⟩, fun h => congrArg Host.Outcome.next h.2.symm⟩
  | cons d ds ih =>
    unfold drawBytes
    cases h : accessMem .overlay d.1 (some d.2) s with
    | next u =>
      obtain ⟨hd, rfl⟩ := (accessMem_overlay_iff _ _ _ _).1 h
      simp only [ih, List.forall_mem_cons, List.foldl_cons]
      exact ⟨fun hu => ⟨⟨hd, hu.1⟩, hu.2⟩, fun hu => ⟨hu.1.2, hu.2⟩⟩
    | fault f => cases f
    | refused r =>
      have hn : ¬ (backed s.config d.1 = true ∧ mayWrite s .overlay d.1 = true) := fun hd => by
        rw [(accessMem_overlay_iff d.1 d.2 s _).2 ⟨hd, rfl⟩] at h
        cases h
      simp only [List.forall_mem_cons, hn, false_and, reduceCtorEq]

/-- A draw stops at its first byte that is not taken. -/
theorem drawBytes_append (good rest : List (Addr × Byte)) (s : State)
    (h : ∀ d ∈ good, backed s.config d.1 = true ∧ mayWrite s .overlay d.1 = true) :
    drawBytes (good ++ rest) s = drawBytes rest { s with mem := good.foldl (fun m d => m.write d.1 d.2) s.mem } := by
  induction good generalizing s with
  | nil => rfl
  | cons d ds ih =>
    rw [List.forall_mem_cons] at h
    rw [List.cons_append, drawBytes, (accessMem_overlay_iff d.1 d.2 s _).2 ⟨h.1, rfl⟩]
    exact ih _ h.2

/-- ACK in OVLWAIT answers the request (30 R103). -/
theorem step_ack_ovlWait {s : State} {draw : List (Addr × Byte)} {es : List Event} (h : s.env = .ack draw :: es)
    (hp : s.phase = .ovlWait) : step s = answerRequest draw { s.tick with env := es } := by
  rw [step_action h]
  have hp' : s.tick.phase = .ovlWait := hp
  simp only [act, awaitRequest, hp']

/-- ACK in IDLE passes (60 R212). -/
theorem step_ack_idle {s : State} {draw : List (Addr × Byte)} {es : List Event} (h : s.env = .ack draw :: es)
    (hp : s.phase = .idle) : step s = .next { s.tick with env := es } := by
  rw [step_action h]
  have hp' : s.tick.phase = .idle := hp
  simp only [act, awaitRequest, hp']

/-- What one engine step can do. -/
theorem engineStep_cases {r t : State} (h : engineStep r = .next t) :
    t = r ∨ (r.phase = .busy ∧ r.resetPin = false ∧ stepCommand (launch r.command r.latch) r = .next t) ∨
      (r.phase = .ovlWait ∧ t = acknowledge r) := by
  unfold engineStep at h
  split at h
  · exact .inl (Host.Outcome.next.inj h).symm
  · rename_i hp
    split at h
    · exact .inl (Host.Outcome.next.inj h).symm
    · exact .inr (.inl ⟨‹_›, by simpa using hp, h⟩)
    · have ht := (Host.Outcome.next.inj h).symm
      unfold sampleAck at ht
      split at ht
      · exact .inr (.inr ⟨‹_›, ht⟩)
      · exact .inl ht

/-- What the engine running alone can do. -/
theorem engineRun_cases {r t : State} (h : engineRun r = .next t) :
    t = r ∨ (r.phase = .busy ∧ r.resetPin = false ∧ exec r.command r = .next t) ∨
      (r.phase = .ovlWait ∧ t = acknowledge r) := by
  unfold engineRun at h
  split at h
  · exact .inl (Host.Outcome.next.inj h).symm
  · rename_i hp
    split at h
    · exact .inl (Host.Outcome.next.inj h).symm
    · exact .inr (.inl ⟨‹_›, by simpa using hp, h⟩)
    · have ht := (Host.Outcome.next.inj h).symm
      unfold sampleAck at ht
      split at ht
      · exact .inr (.inr ⟨‹_›, ht⟩)
      · exact .inl ht

theorem engineStep_change {s t : State} {es : List Event} (h : engineStep { s.tick with env := es } = .next t) :
    Change s t := by
  rcases engineStep_cases h with rfl | ⟨hb, hr, hs⟩ | ⟨ho, rfl⟩
  · exact .quiet ⟨rfl, rfl, rfl, rfl, rfl, rfl, rfl⟩ rfl
  · obtain ⟨_, ⟨_, rfl⟩ | ⟨x, xs, hx, rfl⟩⟩ := stepCommand_cases hs
    · exact .finish hb hr [] (.inl rfl) ⟨s.readData, es, rfl⟩
    · exact .access hb hr x xs hx ⟨es, rfl⟩
  · exact .ack ho [] (.inl rfl) (fun _ h => nomatch h) rfl ⟨rfl, rfl, rfl, rfl, rfl⟩ ⟨rfl, rfl⟩

theorem engineRun_change {s t : State} (d : Word) (h : engineRun { s.tick with readData := d } = .next t) :
    Change s t := by
  rcases engineRun_cases h with rfl | ⟨hb, hr, hs⟩ | ⟨ho, rfl⟩
  · exact .quiet ⟨rfl, rfl, rfl, rfl, rfl, rfl, rfl⟩ rfl
  · rw [exec_eq, runCommand_next_iff] at hs
    exact .finish hb hr _ (.inr rfl) ⟨d, s.env, hs.2⟩
  · exact .ack ho [] (.inl rfl) (fun _ h => nomatch h) rfl ⟨rfl, rfl, rfl, rfl, rfl⟩ ⟨rfl, rfl⟩

/-- Everything a step can do. -/
theorem step_change {s t : State} (h : step s = .next t) : Change s t := by
  cases he : s.env with
  | nil =>
    rw [step_alone he] at h
    exact engineRun_change s.readData h
  | cons e es =>
    rw [step_action he] at h
    cases e with
    | reg size off data =>
      simp only [act, accessReg] at h
      split at h
      · rename_i hs
        obtain ⟨rfl, _⟩ := hs
        cases ho : Reg.ofOffset off with
        | none => cases data <;> simp only [ho] at h <;> cases h <;> exact .quiet ⟨rfl, rfl, rfl, rfl, rfl, rfl, rfl⟩ rfl
        | some r =>
          cases data with
          | none =>
            simp only [ho] at h
            cases h
            exact .quiet ⟨rfl, rfl, rfl, rfl, rfl, rfl, rfl⟩ rfl
          | some v =>
            simp only [ho] at h
            replace h := Host.Outcome.next.inj h
            have hw : s.env = wr r v :: es := by rw [he, wr, offset_of_ofOffset ho]
            by_cases hi : s.phase = .idle
            · by_cases hr : s.resetPin = true
              · rw [writeReg_held r v (by exact hr)] at h
                subst h
                exact .quiet ⟨rfl, rfl, rfl, rfl, rfl, rfl, rfl⟩ rfl
              · replace hr : s.resetPin = false := by simpa using hr
                by_cases hc : r = .ctrl
                · subst hc
                  rw [writeReg_ctrl v (by exact hi) (by exact hr)] at h
                  split at h
                  · exact .start v es hw hi hr ‹_› h.symm
                  · subst h
                    exact .quiet ⟨rfl, rfl, rfl, rfl, rfl, rfl, rfl⟩ rfl
                · rw [writeReg_idle v (by exact hi) (by exact hr) hc] at h
                  exact .regWrite r v es hw hi hr hc h.symm
            · rw [writeReg_not_idle r v (by exact hi)] at h
              subst h
              exact .quiet ⟨rfl, rfl, rfl, rfl, rfl, rfl, rfl⟩ rfl
      · cases h
    | mem who a data =>
      simp only [act, accessMem] at h
      split at h
      · cases data with
        | none =>
          cases h
          exact .quiet ⟨rfl, rfl, rfl, rfl, rfl, rfl, rfl⟩ rfl
        | some v =>
          simp only at h
          split at h
          · cases h
            exact .otherWrite who a v es he ⟨rfl, rfl, rfl, rfl, rfl, rfl, rfl⟩ rfl
          · cases h
      · cases h
    | ovlAck level =>
      cases h
      exact .quiet ⟨rfl, rfl, rfl, rfl, rfl, rfl, rfl⟩ rfl
    | reset level => exact .reset level es he (Host.Outcome.next.inj h).symm
    | engine => exact engineStep_change h
    | wait =>
      simp only [act, pollDone] at h
      split at h
      · cases h
        exact .quiet ⟨rfl, rfl, rfl, rfl, rfl, rfl, rfl⟩ rfl
      · exact engineRun_change _ h
    | ack draw =>
      simp only [act, awaitRequest] at h
      split at h
      · cases h
        exact .quiet ⟨rfl, rfl, rfl, rfl, rfl, rfl, rfl⟩ rfl
      · exact engineRun_change s.readData h
      · rename_i ho
        unfold answerRequest at h
        split at h
        · rename_i u hu
          cases h
          obtain ⟨hd, rfl⟩ := (drawBytes_next_iff _ _ _).1 hu
          exact .ack ho draw (.inr ⟨es, he⟩) (fun d hm => ⟨(hd d hm).1, ((mayWrite_overlay _ _).1 (hd d hm).2).2⟩) rfl
            ⟨rfl, rfl, rfl, rfl, rfl⟩ ⟨rfl, rfl⟩
        · cases h
        · cases h

/-! A platform that ties `ovl_ack` meets the premise `OverlayAcks` (60 R214, 70 R242). -/

/-- With no action coming the signals and the (empty) list of actions stay as they are. -/
theorem overlayTied_step {s t : State} (h : OverlayTied s) (hs : step s = .next t) : OverlayTied t := by
  obtain ⟨ha, he, hr⟩ := h
  rw [step_alone he] at hs
  rcases engineRun_cases hs with rfl | ⟨_, _, hx⟩ | ⟨_, rfl⟩
  · exact ⟨ha, he, hr⟩
  · rw [exec_eq, runCommand_next_iff] at hx
    obtain ⟨_, rfl⟩ := hx
    exact ⟨(endBusy_ovlAck _ _ _).trans ha, (endBusy_env _ _ _).trans he, (endBusy_resetPin _ _ _).trans hr⟩
  · exact ⟨ha, he, hr⟩

theorem overlayTied_run {s t : State} {k : Nat} (h : OverlayTied s) (hs : core.run k s = .next t) : OverlayTied t := by
  induction k generalizing s with
  | zero => cases hs; exact h
  | succ k ih =>
    obtain ⟨u, hu, hk⟩ := run_succ hs
    exact ih (overlayTied_step h hu) hk

/-- From OVLWAIT a tied acknowledge is observed by the next step. -/
theorem step_overlayTied {s : State} (h : OverlayTied s) (ho : s.phase = .ovlWait) :
    step s = .next (acknowledge s.tick) := by
  rw [step_alone h.2.1]
  simp only [engineRun, tick_resetPin, h.2.2, tick_phase, ho, sampleAck, tick_ovlAck, h.1, Bool.false_eq_true, if_false, if_true]

theorem overlayAcks_of_tied {s : State} (h : OverlayTied s) : OverlayAcks s := fun k t hk => by
  have ht := overlayTied_run h hk
  refine ⟨?_, fun ho => ⟨1, acknowledge t.tick, ?_, rfl, fun i v hi hv => ?_⟩⟩
  · rw [step_alone ht.2.1, engineRun]
    split
    · exact fun e => nomatch e
    · split
      · exact fun e => nomatch e
      · rw [exec_eq, runCommand]
        split <;> exact fun e => nomatch e
      · exact fun e => nomatch e
  · rw [run_next 0 (step_overlayTied ht ho), run_zero]
  · obtain rfl : i = 0 := by omega
    cases hv
    exact ho

end Sys2Proof.Laws
end

