-- ==== Sys2Proof/Tests/Slice0.lean ====
section
/-! SUPPORT. Tests: encodings and one-step results with expected values from 95_test_vectors.md (section named at each), the refusals of the well-formedness checks, and for every statement with hypotheses a named witness that meets them. -/

namespace Sys2Proof.Tests

open Sys2Proof.Machine Sys2Proof.Safety Sys2Proof.Laws

/-! ### Well-formedness: an ill-formed term for each check -/

theorem test_wf_register_access : (Event.reg 4 0x40 none).wf = true := by decide
theorem test_illformed_access_size : (Event.reg 2 0x40 none).wf = false := by decide
theorem test_illformed_access_alignment : (Event.reg 4 0x42 none).wf = false := by decide
theorem test_wf_region : (Region.mk 0 4294967296).wf = true := by decide
theorem test_illformed_region_empty : (Region.mk 0x1000 0).wf = false := by decide
theorem test_illformed_region_too_large : (Region.mk 0 4294967297).wf = false := by decide
theorem test_illformed_table_word : decodeTableWord 33 0 = none := by decide

/-! ### Decode, words of 95 section 2.1 or written out from R90, R93, R94 (OP in 3:0, FMT in 6:4, ORDER 7, SHARE 8, ERR 9) -/

theorem test_decode_p420 : decodeTableWord 32 0x00000080 = some (.convertP420 true false false) := by decide
theorem test_decode_spab : decodeTableWord 32 0x00000110 = some (.convertSpab false true false) := by decide
theorem test_decode_spba : decodeTableWord 32 0x00000220 = some (.convertSpba false false true) := by decide
theorem test_decode_c565 : decodeTableWord 32 0b0000110000 = some (.convertRgb565 false false false) := by decide
theorem test_decode_c8888 : decodeTableWord 32 0b1011000000 = some (.convertRgb8888 true false true) := by decide
theorem test_decode_pcopy : decodeTableWord 32 0x00000371 = some .pcopy := by decide
theorem test_decode_deint : decodeTableWord 32 0x00000082 = some (.deint true) := by decide
theorem test_decode_swap : decodeTableWord 32 0b0000000011 = some .swap := by decide
theorem test_decode_rgb565 : decodeTableWord 32 0b0000000100 = some (.rgb565 false) := by decide
theorem test_decode_rgb8888 : decodeTableWord 32 0b0010000101 = some (.rgb8888 true) := by decide
theorem test_decode_reserved5 : decodeTableWord 32 0b0101010000 = some (.convertReserved5 false true false) := by decide
theorem test_decode_reserved6 : decodeTableWord 32 0b1001100000 = some (.convertReserved6 false false true) := by decide
theorem test_decode_reserved7 : decodeTableWord 32 0x000002F0 = some (.convertReserved7 true false true) := by decide
theorem test_decode_badop : (List.range 10).map (fun k => decodeTableWord 32 (6 + k)) =
    [.reservedOp6, .reservedOp7, .reservedOp8, .reservedOp9, .reservedOp10, .reservedOp11, .reservedOp12, .reservedOp13,
      .reservedOp14, .reservedOp15].map some := by decide
theorem test_encode : [Instr.convertSpba true true false, .convertSpba false false true, .rgb8888 true].map encode =
    [0x000001A0, 0x00000220, 0x00000085] := by decide
/-- 95 2.1: 0xFFFFFC01 is PCOPY and CMD reads back 0x00000001. -/
theorem test_cmd_reads_back : readReg (writeReg State.reset .cmd 0xFFFFFC01) .cmd = 0x00000001 := by decide
/-- 30 R102's forms. -/
theorem test_asm : [Instr.convertSpba true true false, .rgb565 true, .swap, .reservedOp6].map Instr.asm =
    [some "CONVERT.SPBA BF SHARE", some "RGB565 BF", some "SWAP", none] := by decide
/-- 95 2.4 V3, 2.7: modifiers a command ignores are written, encoded and dropped by decoding (30 R102, R98). -/
theorem test_ignored_modifiers_written :
    [Command.mk .swap true false false, .mk .pcopy false false true, .mk .deint false true false].map (fun c => (c.text, c.word)) =
        [("SWAP BF", 0x00000083), ("PCOPY ERR", 0x00000201), ("DEINT SHARE", 0x00000102)] ∧
      [(0x00000083 : Word), 0x00000201, 0x00000102].map decode = [.swap, .pcopy, .deint false] ∧
      hostProgram [.cmd ⟨.swap, true, false, false⟩] = [.reg 4 0x08 (some 0x00000083)] := by decide
theorem test_host_program : hostProgram [.srcY 0x1000 4, .cmd ⟨.convertRgb8888, false, false, false⟩, .go] =
    [.reg 4 0x0C (some 0x1000), .reg 4 0x10 (some 4), .reg 4 0x08 (some 0x40), .reg 4 0x00 (some 1)] := by decide

/-! ### A small machine: registers, memory and a started command -/

def stateOf : Host.Outcome State Fault Refusal → Option State
  | .next s => some s
  | .fault _ => none
  | .refused _ => none

def refusalOf : Host.Outcome State Fault Refusal → Option Refusal
  | .next _ => none
  | .fault _ => none
  | .refused r => some r

theorem next_of_isSome {o : Host.Outcome State Fault Refusal} (h : (stateOf o).isSome = true) : ∃ t, o = .next t := by
  cases o with
  | next t => exact ⟨t, rfl⟩
  | fault f => cases h
  | refused r => cases h

/-- Bytes at ascending addresses. -/
def cells : Nat → List Byte → Memory
  | _, [] => []
  | a, b :: bs => (a, b) :: cells (a + 1) bs

/-- Bytes read at ascending addresses. -/
def dump (m : Memory) (a n : Nat) : List Byte := (List.range n).map fun k => m.read (BitVec.ofNat 32 (a + k))

/-- A command started with these registers: the state START leaves (10 R36). -/
def started (i : Instr) (r : Regs) (m : Memory) : State :=
  startCommand { State.reset with regs := { r with cmd := encode i }, mem := m }

/-- What one step leaves: STATUS and some bytes. -/
def after (s : State) (a n : Nat) : Option (Word × List Byte) := (stateOf (step s)).map fun t => (t.status, dump t.mem a n)

/-- 95 2.6's set-up: 4 by 4. -/
def frame : Regs :=
  { Regs.zero with srcYBase := 0x1000, srcYStride := 4, srcCBase := 0x1100, srcCStride := 4, dst0Base := 0x2000, dst0Stride := 4, dst1Base := 0x2100, dst1Stride := 4, dst2Base := 0x2200, dst2Stride := 2, width := 4, height := 4, rowCount := 2 }

def chroma : Memory := cells 0x1100 [0x10, 0x20, 0x11, 0x21, 0x12, 0x22, 0x13, 0x23]

def luma : Memory := cells 0x1000 [0x50, 0x51, 0x52, 0x53, 0x60, 0x61, 0x62, 0x63]

/-- 95 2.5's set-up: one 2 by 2 block. -/
def block : Regs :=
  { Regs.zero with srcYBase := 0x1000, srcYStride := 2, srcCBase := 0x1100, srcCStride := 2, dst0Base := 0x2000, dst0Stride := 8, width := 2, height := 2, rowCount := 2 }

/-! ### One step per command -/

/-- 95 2.2 V1. -/
theorem test_pcopy : after (started .pcopy { frame with dst0Stride := 5, width := 3, height := 2 }
      (cells 0x1000 [0x11, 0x12, 0x13, 0xEE, 0x21, 0x22, 0x23, 0xEE] ++ cells 0x2000 (List.replicate 10 0xCC))) 0x2000 10 =
    some (0x12, [0x11, 0x12, 0x13, 0xCC, 0xCC, 0x21, 0x22, 0x23, 0xCC, 0xCC]) := by decide
/-- 95 2.2 V4: the destination wraps past the top of memory. -/
theorem test_pcopy_wraps : (stateOf (step (started .pcopy { frame with srcYStride := 0, dst0Base := 0xFFFFFFFE, dst0Stride := 0, height := 1 }
      (cells 0x1000 [1, 2, 3, 4])))).map (fun t => (dump t.mem 0xFFFFFFFE 2, dump t.mem 0 2)) =
    some ([1, 2], [3, 4]) := by decide
/-- 95 2.3 V4: odd width, one pair short. -/
theorem test_deint : after (started (.deint false) { frame with srcCStride := 5, dst1Stride := 2, width := 5, height := 2 }
      (cells 0x1100 [0x10, 0x20, 0x11, 0x21, 0x99])) 0x2100 3 = some (0x12, [0x10, 0x11, 0x00]) := by decide
/-- 95 2.3 V2: B-first. -/
theorem test_deint_bf : after (started (.deint true) { frame with dst1Stride := 2 } chroma) 0x2100 4 =
    some (0x12, [0x20, 0x21, 0x22, 0x23]) := by decide
/-- 95 2.4 V2: in place. -/
theorem test_swap : after (started .swap { frame with dst1Base := 0x1100 } chroma) 0x1100 8 =
    some (0x12, [0x20, 0x10, 0x21, 0x11, 0x22, 0x12, 0x23, 0x13]) := by decide
/-- 95 2.4 V4: odd width. -/
theorem test_swap_odd_width : after (started .swap { frame with width := 3, height := 2 } (cells 0x1100 [0x10, 0x20, 0x99])) 0x2100 3 =
    some (0x12, [0x20, 0x10, 0x00]) := by decide
set_option maxRecDepth 4000 in
/-- 95 2.5 T2, row (100, 200, 50). -/
theorem test_rgb565 : after (started (.rgb565 false) block (cells 0x1000 [100, 100, 100, 100] ++ cells 0x1100 [0xC8, 0x32])) 0x2000 2 =
    some (0x12, [0x3E, 0x04]) := by decide
set_option maxRecDepth 4000 in
/-- 95 2.5 T5: B-first. -/
theorem test_rgb8888 : after (started (.rgb8888 true) block (cells 0x1000 [100, 100, 100, 100] ++ cells 0x1100 [0xC8, 0x32])) 0x2000 4 =
    some (0x12, [0x00, 0x47, 0xD6, 0x00]) := by decide
set_option maxRecDepth 4000 in
/-- 95 2.5 T4: each pixel takes its own luma. -/
theorem test_rgb8888_siting : after (started (.rgb8888 false) block (cells 0x1000 [10, 20, 30, 40] ++ cells 0x1100 [128, 128])) 0x2000 16 =
    some (0x12, [0x0A, 0x0A, 0x0A, 0, 0x14, 0x14, 0x14, 0, 0x1E, 0x1E, 0x1E, 0, 0x28, 0x28, 0x28, 0]) := by decide
/-- 95 2.6 D2: the second band, in the frame's last rows. -/
theorem test_convert_p420 : (stateOf (step (started (.convertP420 false false false) { frame with startRow := 2 }
      (cells 0x1008 [0x70, 0x71, 0x72, 0x73, 0x80, 0x81, 0x82, 0x83] ++ chroma)))).map (fun t =>
        (t.status, dump t.mem 0x2008 8, dump t.mem 0x2104 2, dump t.mem 0x2202 2)) =
    some (0x05, [0x70, 0x71, 0x72, 0x73, 0x80, 0x81, 0x82, 0x83], [0x12, 0x13], [0x22, 0x23]) := by decide
/-- 95 2.6 D3: SHARE leaves the luma out. -/
theorem test_convert_p420_share : (stateOf (step (started (.convertP420 false true false) frame (luma ++ chroma)))).map (fun t =>
      (t.status, dump t.mem 0x2000 2, dump t.mem 0x2100 2, dump t.mem 0x2200 2)) =
    some (0x12, [0x00, 0x00], [0x10, 0x11], [0x20, 0x21]) := by decide
/-- 95 2.6 D10: an odd row count copies three luma rows and one chroma row. -/
theorem test_convert_spab : (stateOf (step (started (.convertSpab false false false) { frame with rowCount := 3 } (luma ++ cells 0x1008 [0x70] ++ chroma)))).map (fun t =>
      (t.status, dump t.mem 0x2008 1, dump t.mem 0x2100 5)) = some (0x12, [0x70], [0x10, 0x20, 0x11, 0x21, 0x00]) := by decide
/-- 95 2.7: `CONVERT.SPAB SHARE` is native and shared. -/
theorem test_convert_spab_shared : after (started (.convertSpab false true false) frame (luma ++ chroma)) 0x2100 2 = some (0x42, [0, 0]) := by decide
/-- 95 2.6 D5: the order the source has not is made by the swap. -/
theorem test_convert_spba : after (started (.convertSpba false false false) frame (luma ++ chroma)) 0x2100 5 =
    some (0x12, [0x20, 0x10, 0x21, 0x11, 0x00]) := by decide
/-- 95 2.6 D6: shared, last band. -/
theorem test_convert_spba_shared : after (started (.convertSpba false true false) { frame with startRow := 2 } (luma ++ chroma)) 0x2104 4 =
    some (0x05, [0x22, 0x12, 0x23, 0x13]) := by decide
set_option maxRecDepth 4000 in
/-- 95 2.5 T2, row (81, 90, 240), last band of a 2 by 2 frame. -/
theorem test_convert_rgb565 : after (started (.convertRgb565 false true false) block (cells 0x1000 [81, 81, 81, 81] ++ cells 0x1100 [90, 240])) 0x2000 2 =
    some (0x05, [0x20, 0xF8]) := by decide
set_option maxRecDepth 4000 in
/-- 95 2.5 T2, row (235, 128, 128). -/
theorem test_convert_rgb8888 : after (started (.convertRgb8888 false false false) { block with height := 4 } (cells 0x1000 [235, 235, 235, 235] ++ cells 0x1100 [128, 128])) 0x2000 4 =
    some (0x12, [0xEB, 0xEB, 0xEB, 0x00]) := by decide
/-- 95 2.7, FMT 5 to 7: SKIP_BADFMT, and SKIP_ODD before it. -/
theorem test_convert_reserved5 : after (started (.convertReserved5 false true false) frame chroma) 0x2100 1 = some (0x52, [0]) := by decide
theorem test_convert_reserved6 : after (started (.convertReserved6 false false false) { frame with startRow := 1 } chroma) 0x2100 1 = some (0x32, [0]) := by decide
theorem test_convert_reserved7 : after (started (.convertReserved7 true false true) { frame with startRow := 1 } chroma) 0x2100 1 = some (0x22, [0]) := by decide
/-- 95 2.7, OP 6 to 15: SKIP_BADOP. -/
theorem test_reserved_ops : (List.range 10).map (fun k => (stateOf (step (State.reset.withFetchWord 32 (6 + k)))).map State.status) =
    List.replicate 10 (some 0x62) := by decide
/-- 95 2.8: a bare START after reset asks for the overlay; 95 2.7: 0x206 is SKIP_BADOP, 0x201 the copy. -/
theorem test_bare_start : (stateOf (step (State.reset.withFetchWord 32 0))).map State.status = some 0x05 := by decide
theorem test_ignored_modifiers : [0x206, 0x201, 0x200].map (fun w => (stateOf (step (State.reset.withFetchWord 32 w))).map State.status) =
    [some 0x62, some 0x12, some 0x22] := by decide
/-- 95 P4: canonical access order of RGB565 BF, its first accesses. -/
theorem test_canonical_order : ((launch (.convertRgb565 true false false) { frame with dst0Stride := 8, height := 2 }).accesses.map Access.addr).take 8 =
    [0x1101, 0x1100, 0x1000, 0x2000, 0x2001, 0x1001, 0x2002, 0x2003] := by decide
/-- 95 P3 step f: the accesses in order. -/
theorem test_access_order_share : (launch (.convertSpba false true false) { frame with startRow := 2 }).accesses.map (fun x => (x.isWrite, x.addr)) =
    [(false, 0x1104), (false, 0x1105), (true, 0x2104), (true, 0x2105), (false, 0x1106), (false, 0x1107), (true, 0x2106), (true, 0x2107)] := by decide
/-- 95 2.6, the overlay condition: the sum does not wrap. -/
theorem test_overlay_condition : [(0, 2), (2, 2), (0, 4), (2, 1)].map (fun (s, n) => Regs.lastBand { frame with startRow := s, rowCount := n }) =
      [false, true, true, false] ∧
    Regs.lastBand { frame with startRow := 0xFFFFFFFE, rowCount := 4, height := 16 } = true := by decide

/-! ### Colour arithmetic, 95 2.5 T1 and T3 -/

theorem test_deltas : [(0, 0), (255, 255), (127, 127), (129, 129), (54, 34), (90, 240)].map
      (fun (cb, cr) => (deltaR Config.default cr, deltaG Config.default cb cr, deltaB Config.default cb)) =
    [(-205, 154, -259), (202, -154, 256), (-2, 1, -3), (1, -2, 2), (-151, 105, -150), (178, -77, -77)] := by decide
theorem test_pack565 : [(7, 3, 7), (8, 4, 8), (248, 252, 248), (18, 52, 86)].map (fun (r, g, b) => pack565 r g b) =
    [0x0000, 0x0821, 0xFFFF, 0x11AA] := by decide
theorem test_pack8888 : [(7, 3, 7), (255, 0, 0), (18, 52, 86)].map (fun (r, g, b) => pack8888 r g b) =
    [0x00070307, 0x00FF0000, 0x00123456] := by decide

/-! ### Witnesses: for every statement with hypotheses, a concrete state that meets them -/

/-- With the default platform every address is plain memory. -/
theorem owned_by_default {i : Instr} {s : State} (h : s.config = Config.default) : BuffersOwned i s := fun x _ => by
  have hlt := x.addr.isLt
  simp only [h, backed, Config.default, List.any_cons, List.any_nil, Bool.or_false, decide_eq_true_eq]
  omega

/-- So a started command answers a next state there. -/
theorem runs_by_default {i : Instr} {s : State} (hp : Started s) (h : s.config = Config.default) : ∃ t, exec i s = .next t :=
  ⟨_, exec_started hp (owned_by_default h)⟩

/-- Phase OVLWAIT on the frame of 95 2.6, after CONVERT.SPBA. -/
def waiting : State :=
  { started (.convertSpba false false false) { frame with rowCount := 4 } chroma with phase := .ovlWait, status := statusRequest }

/-- The state with these actions to come. -/
def withActions (s : State) (es : List Event) : State := { s with env := es }

theorem witness_DecodeUndoesEncode : (Instr.convertSpba true true true).wf = true ∧ Instr.reservedOp15.wf = true := by decide

theorem witness_IgnoredBitsDoNotChangeDecode :
    (0xFFFFFC01 : Word) &&& 0xF = 1 ∧ 6 ≤ (0x00000206 : Word) &&& 0xF ∧ 6 ≤ (0x0000000F : Word) &&& 0xF ∧ (0x00000384 : Word) &&& 0xF = 4 := by decide

theorem witness_StepRunsTheStartedCommand :
    let s := started .swap frame chroma
    s.phase = .busy ∧ s.resetPin = false ∧ s.env = [] ∧ (withActions s [.wait]).env = [.wait] ∧ s.done = false ∧
      (withActions s [.ack []]).env = [.ack []] := by decide

theorem witness_HostWritesStartTheCommand :
    let runs (p : List HostStmt) := withActions State.reset (hostProgram p)
    State.reset.phase = .idle ∧ State.reset.resetPin = false ∧
      (runs [.wr .cmd 0xFFFFFC83, .go]).env = hostProgram [.wr .cmd 0xFFFFFC83, .go] ∧
      (runs [.cmd ⟨.swap, true, false, false⟩, .go]).env = hostProgram [.cmd ⟨.swap, true, false, false⟩, .go] ∧
      (runs [.wr .cmd (encode .reservedOp15), .go]).env = hostProgram [.wr .cmd (encode .reservedOp15), .go] :=
  ⟨rfl, rfl, rfl, rfl, rfl⟩

theorem witness_ResetAbortsAndHolds :
    let held := driveReset true waiting
    (withActions waiting [.reset true, .reset false]).env = [.reset true, .reset false] ∧ held.resetPin = true ∧
      (withActions held [wr .ctrl 1]).env = [wr .ctrl 1] ∧ (withActions held [.engine]).env = [.engine] ∧ held.env = [] := by decide

/-- Both ends of k: no access performed, and all 24. -/
theorem witness_ResetKeepsAPrefixOfTheAccesses :
    let s := started .pcopy { frame with height := 3 } luma
    s.phase = .busy ∧ s.resetPin = false ∧ Started s ∧ BuffersOwned s.command s ∧
      0 ≤ (launch s.command s.latch).accesses.length ∧ 24 ≤ (launch s.command s.latch).accesses.length ∧
      (withActions s [.reset true]).env = List.replicate 0 .engine ++ [.reset true] ∧
      (withActions s (List.replicate 24 .engine ++ [.reset true])).env = List.replicate 24 .engine ++ [.reset true] :=
  ⟨by decide, by decide, by decide, owned_by_default rfl, by decide, by decide, rfl, rfl⟩

theorem witness_RegisterWritesTakeEffectOnlyInIdle :
    waiting.phase ≠ .idle ∧ State.reset.phase = .idle ∧ State.reset.resetPin = false ∧ Reg.status ≠ .ctrl ∧ Reg.cmd ≠ .ctrl ∧
      (withActions State.reset [wr .rowCount 7]).env = [wr .rowCount 7] := by decide

theorem witness_RegisterReadsHaveNoSideEffect :
    (withActions waiting [.reg 4 0x40 none]).env = [.reg 4 Reg.rowCount.offset none] := by decide

/-- The first offset past the map. -/
theorem witness_OffsetsOutsideTheMapHoldNothing : 0x44 % 4 = 0 ∧ ∀ r : Reg, r.offset ≠ 0x44 :=
  ⟨by decide, fun r => by cases r <;> decide⟩

theorem witness_OtherRegisterAccessesAreRefused :
    (2 ≠ 4 ∨ 0x40 % 4 ≠ 0) ∧ (4 ≠ 4 ∨ 0x41 % 4 ≠ 0) ∧ (withActions State.reset [.reg 4 0x41 none]).env = [.reg 4 0x41 none] := by decide

theorem witness_StartLatchesTheRegisters :
    State.reset.resetPin = false ∧ (withActions State.reset [wr .ctrl 3]).env = [wr .ctrl 3] ∧ (3 : Word) &&& 1 = 1 ∧
      State.reset.phase = .idle ∧ waiting.phase ≠ .idle ∧ (0xFFFFFFFE : Word) &&& 1 ≠ 1 := by decide

/-- Admitted by the default platform; refused by one whose plain memory ends inside the destination. -/
theorem witness_CommandAdmittedOrRefused :
    let s := started .swap frame chroma
    let small := { s with config := { Config.default with plainMemory := [⟨0x1000, 0x1107⟩] } }
    Started s ∧ BuffersOwned .swap s ∧ Started small ∧ ¬ BuffersOwned .swap small :=
  ⟨by decide, owned_by_default rfl, by decide, by decide⟩

/-- A next state exists; the byte at 0x2108 is outside what the command writes. -/
theorem witness_CommandFrame :
    let s := started .swap frame chroma
    (∃ t, exec .swap s = .next t) ∧ (0x2108 : Addr) ∉ writeSet (s.current (launch .swap s.latch)).pending :=
  ⟨runs_by_default rfl rfl, by decide⟩

theorem witness_PcopyRunsPlaneCopy : Started (started .pcopy frame luma) ∧ BuffersOwned .pcopy (started .pcopy frame luma) :=
  ⟨rfl, owned_by_default rfl⟩

theorem witness_DeintRunsDeinterleave :
    Started (started (.deint true) frame chroma) ∧ BuffersOwned (.deint true) (started (.deint true) frame chroma) :=
  ⟨rfl, owned_by_default rfl⟩

theorem witness_SwapRunsSwapPairs : Started (started .swap frame chroma) ∧ BuffersOwned .swap (started .swap frame chroma) :=
  ⟨rfl, owned_by_default rfl⟩

theorem witness_Rgb565RunsYuvToRgb :
    Started (started (.rgb565 true) block []) ∧ BuffersOwned (.rgb565 true) (started (.rgb565 true) block []) :=
  ⟨rfl, owned_by_default rfl⟩

theorem witness_Rgb8888RunsYuvToRgb :
    Started (started (.rgb8888 false) block []) ∧ BuffersOwned (.rgb8888 false) (started (.rgb8888 false) block []) :=
  ⟨rfl, owned_by_default rfl⟩

theorem witness_ConvertP420Runs :
    let s := started (.convertP420 true false false) { frame with startRow := 2 } chroma
    Started s ∧ BuffersOwned (.convertP420 true false false) s ∧ s.latch.startRow.toNat % 2 = 0 :=
  ⟨rfl, owned_by_default rfl, by decide⟩

/-- Each clause, in the native order unshared, and shared in the other order. -/
theorem witness_ConvertSemiPlanarRuns :
    let s := started (.convertSpab false false false) frame chroma
    Started s ∧ s.latch.startRow.toNat % 2 = 0 ∧ BuffersOwned (.convertSpab false false false) s ∧
      ¬ (false = true ∧ false = false) ∧ BuffersOwned (.convertSpab true true false) s ∧ ¬ (true = true ∧ true = false) ∧
      BuffersOwned (.convertSpba false true false) s ∧ ¬ (true = true ∧ false = true) :=
  ⟨rfl, by decide, owned_by_default rfl, by decide, owned_by_default rfl, by decide, owned_by_default rfl, by decide⟩

theorem witness_ConvertPackedRuns :
    let s := started (.convertRgb565 false true false) { block with startRow := 2 } []
    Started s ∧ s.latch.startRow.toNat % 2 = 0 ∧ BuffersOwned (.convertRgb565 false true false) s ∧
      BuffersOwned (.convertRgb8888 false true false) s :=
  ⟨rfl, by decide, owned_by_default rfl, owned_by_default rfl⟩

theorem witness_Skips :
    Started (started (.convertP420 false false true) frame []) ∧
      (started (.convertSpba true true false) { frame with startRow := 3 } []).latch.startRow.toNat % 2 = 1 ∧
      (started (.convertSpba true true false) { frame with startRow := 0xFFFFFFFE } []).latch.startRow.toNat % 2 = 0 := by decide

/-- First and last reserved operation, with other fields set. -/
theorem witness_ReservedOperationSkips :
    6 ≤ (0x00000206 : Word) &&& 0xF ∧ 6 ≤ (0xFFFFFFFF : Word) &&& 0xF ∧ Started (started .reservedOp15 frame []) := by decide

/-- Two register sets that differ in what PCOPY, or a shared CONVERT.SPAB, does not list. -/
theorem witness_UnlistedRegistersDoNotMatter :
    let l := { frame with dst1Base := 0x5000, startRow := 3 }
    let m := { frame with srcYBase := 0x7000, dst0Stride := 9, dst2Base := 5 }
    l.width = frame.width ∧ l.height = frame.height ∧ l.srcY = frame.srcY ∧ l.dst0 = frame.dst0 ∧ l ≠ frame ∧
      m.startRow = frame.startRow ∧ m.rowCount = frame.rowCount ∧ m.srcC = frame.srcC ∧ m.dst1 = frame.dst1 ∧
      (true = false → m.srcY = frame.srcY ∧ m.dst0 = frame.dst0) ∧ m.srcY ≠ frame.srcY := by decide

/-- Just past the last row, and just past the last column, of what each command writes. -/
theorem witness_LeafCommandFootprint :
    let s := started .pcopy { block with dst0Stride := 0x100, dst1Base := 0x3000, dst1Stride := 0x100, dst2Base := 0x4000, dst2Stride := 0x100 } []
    Started s ∧ (∃ t, exec .pcopy s = .next t) ∧ (∃ t, exec (.deint true) s = .next t) ∧ (∃ t, exec .swap s = .next t) ∧
      (∃ t, exec (.rgb565 true) s = .next t) ∧ (∃ t, exec (.rgb8888 true) s = .next t) ∧
      (∀ r < s.latch.h, ∀ c < s.latch.w, (0x2102 : Addr) ≠ s.latch.dst0.at r c) ∧
      (∀ i < s.latch.h / 2, ∀ j < s.latch.w / 2, (0x3001 : Addr) ≠ s.latch.dst1.at i j ∧ (0x3001 : Addr) ≠ s.latch.dst2.at i j) ∧
      (∀ i < s.latch.h / 2, ∀ c < 2 * (s.latch.w / 2), (0x3002 : Addr) ≠ s.latch.dst1.at i c) ∧
      (∀ r < 2 * (s.latch.h / 2), ∀ c < 4 * (s.latch.w / 2), (0x2104 : Addr) ≠ s.latch.dst0.at r c) ∧
      (∀ r < 2 * (s.latch.h / 2), ∀ c < 8 * (s.latch.w / 2), (0x2108 : Addr) ≠ s.latch.dst0.at r c) :=
  ⟨rfl, runs_by_default rfl rfl, runs_by_default rfl rfl, runs_by_default rfl rfl, runs_by_default rfl rfl,
    runs_by_default rfl rfl, by decide, by decide, by decide, by decide, by decide⟩

/-- The row before the window, in each destination plane. -/
theorem witness_ConvertFootprint :
    let s := started (.convertP420 false false false) { frame with startRow := 2, dst0Stride := 0x100 } []
    Started s ∧ (∃ t, exec (.convertP420 false false false) s = .next t) ∧ (∃ t, exec (.convertSpab false false false) s = .next t) ∧
      (∃ t, exec (.convertSpba false false false) s = .next t) ∧ (∃ t, exec (.convertRgb565 false false false) s = .next t) ∧
      (∃ t, exec (.convertRgb8888 false false false) s = .next t) ∧
      (∀ r < s.latch.n, ∀ c < s.latch.w, (0x2103 : Addr) ≠ s.latch.dst0.at (s.latch.s + r) c) ∧
      (∀ i < s.latch.n / 2, ∀ j < s.latch.w / 2,
        (0x2103 : Addr) ≠ s.latch.dst1.at (s.latch.s / 2 + i) j ∧ (0x2103 : Addr) ≠ s.latch.dst2.at (s.latch.s / 2 + i) j) ∧
      (∀ i < s.latch.n / 2, ∀ c < 4, (0x2103 : Addr) ≠ s.latch.dst1.at (s.latch.s / 2 + i) c) ∧
      (∀ r < 2 * (s.latch.n / 2), ∀ c < 8 * (s.latch.w / 2), (0x2110 : Addr) ≠ s.latch.dst0.at (s.latch.s + r) c) :=
  ⟨rfl, runs_by_default rfl rfl, runs_by_default rfl rfl, runs_by_default rfl rfl, runs_by_default rfl rfl,
    runs_by_default rfl rfl, by decide, by decide, by decide, by decide⟩

/-- Disjointness, once the two address lists are written out. -/
theorem disjoint_of {xs : List Access} {rs ws : List Addr} (hr : readSet xs = rs) (hw : writeSet xs = ws)
    (h : (∀ a ∈ rs, a ∉ ws) ∧ ws.Nodup) : Disjoint xs := by
  subst hr hw
  exact h

set_option maxRecDepth 8000 in
/-- The bytes SWAP reads and writes in the frame of 95 2.6. -/
theorem swap_reads : readSet (launch .swap (started .swap frame chroma).latch).accesses =
    [0x1100, 0x1101, 0x1102, 0x1103, 0x1104, 0x1105, 0x1106, 0x1107] := by decide

set_option maxRecDepth 8000 in
theorem swap_writes : writeSet (launch .swap (started .swap frame chroma).latch).accesses =
    [0x2100, 0x2101, 0x2102, 0x2103, 0x2104, 0x2105, 0x2106, 0x2107] := by decide

theorem witness_PcopyOnDisjointPlanesCopies :
    let s := started .pcopy { frame with width := 3, height := 2 } luma
    Started s ∧ Disjoint (launch .pcopy s.latch).accesses ∧ (∃ t, exec .pcopy s = .next t) ∧ 1 < s.latch.h ∧ 2 < s.latch.w :=
  ⟨rfl, disjoint_of (rs := [0x1000, 0x1001, 0x1002, 0x1004, 0x1005, 0x1006])
      (ws := [0x2000, 0x2001, 0x2002, 0x2004, 0x2005, 0x2006]) (by decide) (by decide) (by simp), runs_by_default rfl rfl, by decide, by decide⟩

set_option maxRecDepth 8000 in
theorem witness_DeintOutputsRecoverTheSource :
    let s := started (.deint false) { frame with dst1Stride := 2 } chroma
    Started s ∧ Disjoint (launch (.deint false) s.latch).accesses ∧ (∃ t, exec (.deint false) s = .next t) ∧
      1 < s.latch.h / 2 ∧ 1 < s.latch.w / 2 :=
  ⟨rfl, disjoint_of (rs := [0x1100, 0x1101, 0x1102, 0x1103, 0x1104, 0x1105, 0x1106, 0x1107])
      (ws := [0x2100, 0x2200, 0x2101, 0x2201, 0x2102, 0x2202, 0x2103, 0x2203]) (by decide) (by decide) (by simp), runs_by_default rfl rfl, by decide, by decide⟩

set_option maxRecDepth 8000 in
theorem witness_SwapInPlaceTwiceRestores :
    let s := started .swap { frame with dst1Base := 0x1100 } chroma
    Started s ∧ s.latch.dst1 = s.latch.srcC ∧ (writeSet (launch .swap s.latch).accesses).Nodup ∧
      ∃ t u, exec .swap s = .next t ∧ exec .swap t = .next u :=
  ⟨rfl, by decide, by
      rw [show writeSet (launch .swap (started .swap { frame with dst1Base := 0x1100 } chroma).latch).accesses =
        [0x1100, 0x1101, 0x1102, 0x1103, 0x1104, 0x1105, 0x1106, 0x1107] by decide]
      simp, _, _, exec_started rfl (owned_by_default rfl),
    exec_started (endBusy_progress _ _ _) (owned_by_default (endBusy_config _ _ _))⟩

set_option maxRecDepth 8000 in
theorem witness_Rgb8888PixelsOnDisjointPlanes :
    let s := started (.rgb8888 true) block []
    Started s ∧ Disjoint (launch (.rgb8888 true) s.latch).accesses ∧ (∃ t, exec (.rgb8888 true) s = .next t) ∧
      1 < 2 * (s.latch.h / 2) ∧ 1 < 2 * (s.latch.w / 2) :=
  ⟨rfl, disjoint_of (rs := [0x1101, 0x1100, 0x1000, 0x1001, 0x1002, 0x1003])
      (ws := [0x2000, 0x2001, 0x2002, 0x2003, 0x2004, 0x2005, 0x2006, 0x2007, 0x2008, 0x2009, 0x200A, 0x200B, 0x200C, 0x200D, 0x200E, 0x200F])
      (by decide) (by decide) (by simp), runs_by_default rfl rfl, by decide, by decide⟩

set_option maxRecDepth 8000 in
/-- Two states with the same source bytes and different bytes elsewhere. -/
theorem witness_OutputDependsOnlyOnTheBytesRead :
    let s := started .swap frame chroma
    let s' := { started .swap frame (chroma ++ cells 0x2100 [0xCC, 0xCC]) with readData := 5 }
    Started s ∧ Started s' ∧ s.latch = s'.latch ∧ s.config = s'.config ∧ s.mem ≠ s'.mem ∧
      (∀ a ∈ readSet (launch .swap s.latch).accesses, s.mem.read a = s'.mem.read a) ∧
      (∃ t, exec .swap s = .next t) ∧ ∃ t, exec .swap s' = .next t :=
  ⟨rfl, rfl, by decide, by decide, by decide, by
      rw [swap_reads]
      simp only [List.forall_mem_cons, List.not_mem_nil, false_imp_iff, implies_true, and_true]
      decide, runs_by_default rfl rfl, runs_by_default rfl rfl⟩

set_option maxRecDepth 8000 in
theorem witness_CommandOnDisjointBytesIsIdempotent :
    let s := started .swap frame chroma
    Started s ∧ (∀ a ∈ readSet (launch .swap s.latch).accesses, a ∉ writeSet (launch .swap s.latch).accesses) ∧
      ∃ t u, exec .swap s = .next t ∧ exec .swap t = .next u :=
  ⟨rfl, by rw [swap_reads, swap_writes]; simp, _, _, exec_started rfl (owned_by_default rfl),
    exec_started (endBusy_progress _ _ _) (owned_by_default (endBusy_config _ _ _))⟩

set_option maxRecDepth 8000 in
/-- A window of four rows in bands of two and two, and in bands of four and none. -/
theorem witness_PackedBandsTileTheWindow :
    let s := started (.convertRgb565 true false false) { block with startRow := 2, rowCount := 4 } []
    s.latch.startRow.toNat % 2 = 0 ∧ 2 % 2 = 0 ∧ 4 % 2 = 0 ∧ s.latch.startRow.toNat + 4 < 2 ^ 32 ∧
      s.latch.rowCount.toNat = 2 + 2 ∧ s.latch.rowCount.toNat = 4 + 0 ∧ Started s ∧
      let first := { s with latch := { s.latch with rowCount := BitVec.ofNat 32 2 } }
      let second (m : Memory) := { s with mem := m, latch := { s.latch with startRow := s.latch.startRow + BitVec.ofNat 32 2, rowCount := BitVec.ofNat 32 2 } }
      (∃ t u v, exec (.convertRgb565 true false false) s = .next t ∧ exec (.convertRgb565 true false false) first = .next u ∧
        exec (.convertRgb565 true false false) (second u.mem) = .next v) ∧
      ∃ t u v, exec (.convertRgb8888 true false false) s = .next t ∧ exec (.convertRgb8888 true false false) first = .next u ∧
        exec (.convertRgb8888 true false false) (second u.mem) = .next v :=
  ⟨by decide, by decide, by decide, by decide, by decide, by decide, rfl,
    ⟨_, _, _, exec_started rfl (owned_by_default rfl), exec_started rfl (owned_by_default rfl), exec_started rfl (owned_by_default rfl)⟩,
    _, _, _, exec_started rfl (owned_by_default rfl), exec_started rfl (owned_by_default rfl), exec_started rfl (owned_by_default rfl)⟩

theorem witness_WordsAreStoredLowByteFirst :
    4 ≤ 4 ∧ 3 < 4 ∧ ∀ k < 4, (0x00000003 : Addr) ≠ 0xFFFFFFFF + BitVec.ofNat 32 k := by decide

theorem witness_RequestShowsTheLatchedFrame :
    ∃ t, exec (.convertP420 false false false) (started (.convertP420 false false false) Regs.zero []) = .next t ∧ t.phase = .ovlWait :=
  ⟨_, exec_started rfl (owned_by_default rfl), rfl⟩

/-- The level `ovl_ack`, and an ACK whose draw is the first and the last byte of the luma plane; in OVLWAIT and in IDLE. -/
theorem witness_AcknowledgeCompletesTheCommand :
    let s := { waiting with ovlAck := true }
    let draw : List (Addr × Byte) := [(0x2000, 7), (0x200F, 8)]
    s.resetPin = false ∧ s.ovlAck = true ∧ s.env = [] ∧ s.phase = .ovlWait ∧ { State.reset with ovlAck := true }.phase = .idle ∧
      (withActions waiting [.ack draw]).env = [.ack draw] ∧ waiting.resetPin = false ∧ waiting.phase = .ovlWait ∧
      (∀ d ∈ draw, backed waiting.config d.1 = true ∧ waiting.latch.inFrame d.1 = true) ∧
      (withActions State.reset [.ack draw]).env = [.ack draw] :=
  ⟨rfl, rfl, rfl, rfl, rfl, rfl, rfl, rfl, by
    simp only [List.forall_mem_cons, List.not_mem_nil, false_imp_iff, implies_true, and_true]
    decide, rfl⟩

theorem witness_WaitsForEverWithoutAcknowledge :
    let acts : List Event := [.engine, wr .ctrl 1, wr .width 0x55]
    (withActions waiting acts).phase = .ovlWait ∧ waiting.resetPin = false ∧ waiting.ovlAck = false ∧
      ∀ e ∈ acts, e = .engine ∨ ∃ r v, e = wr r v :=
  ⟨rfl, rfl, rfl, fun e he => by
    simp only [List.mem_cons, List.not_mem_nil, or_false] at he
    rcases he with rfl | rfl | rfl
    · exact .inl rfl
    · exact .inr ⟨_, _, rfl⟩
    · exact .inr ⟨_, _, rfl⟩⟩

/-- First and last byte of the luma plane, and the byte after it; a draw that leaves the frame, and one that leaves plain
memory; and a request that does not stand. -/
theorem witness_OverlayWritesOnlyItsFrame :
    let small := { waiting with config := { Config.default with plainMemory := [⟨0x2000, 4⟩] } }
    backed waiting.config 0x200F = true ∧ waiting.phase = .ovlWait ∧ waiting.latch.inFrame 0x2000 = true ∧
      waiting.latch.inFrame 0x200F = true ∧ waiting.latch.inFrame 0x2010 = false ∧ waiting.latch.inFrame 0x2107 = true ∧
      (small.phase = .ovlWait ∧ backed small.config 0x2003 = true ∧ small.latch.inFrame 0x2003 = true ∧ backed small.config 0x2004 = false ∧
          (withActions small [.ack ([(0x2003, 1)] ++ (0x2004, 2) :: [])]).env = .ack ([(0x2003, 1)] ++ (0x2004, 2) :: []) :: []) ∧
      (withActions waiting [.ack ([(0x200F, 1)] ++ (0x2010, 2) :: [])]).env = .ack ([(0x200F, 1)] ++ (0x2010, 2) :: []) :: [] ∧
      ¬ ((started .swap frame chroma).phase = .ovlWait ∧ (started .swap frame chroma).latch.inFrame 0x2000 = true) := by decide

/-- A command just started, with eight accesses to come, and one in mid-progress, with three. -/
theorem witness_EngineStepsMakeTheWholeCommand :
    let s := withActions (started .swap { frame with height := 2 } chroma) (List.replicate 9 .engine)
    let mid := { s with env := List.replicate 4 .engine, progress := some ⟨(launch s.command s.latch).accesses.drop 5, ⟨0x11, 0x21, 0, 0, 0⟩, .ok, false⟩ }
    (s.phase = .busy ∧ s.resetPin = false ∧ (∃ t, exec s.command s = .next t) ∧
      s.env = List.replicate ((s.current (launch s.command s.latch)).pending.length + 1) .engine) ∧
    mid.phase = .busy ∧ mid.resetPin = false ∧ (∃ t, exec mid.command mid = .next t) ∧
      mid.env = List.replicate ((mid.current (launch mid.command mid.latch)).pending.length + 1) .engine :=
  ⟨⟨rfl, rfl, runs_by_default rfl rfl, by decide⟩, rfl, rfl, next_of_isSome (by decide), by decide⟩

theorem witness_HandsOffRunEqualsRunAlone :
    let s := withActions (started .pcopy { frame with width := 1, height := 1 } luma)
      [.engine, .mem .decoder 0x1001 (some 7), .engine, .engine, .mem .host 0x2001 (some 8)]
    s.phase = .busy ∧ s.resetPin = false ∧ Started s ∧
      (∀ e ∈ s.env, e = .engine ∨ ∃ who a v, e = .mem who a (some v) ∧ handsOff (launch s.command s.latch).accesses e = true) ∧
      s.env.count .engine = (launch s.command s.latch).accesses.length + 1 ∧
      (∃ t, exec s.command s = .next t) ∧ ∃ u, core.run s.env.length s = .next u := by
  refine ⟨rfl, rfl, rfl, fun e he => ?_, by decide, runs_by_default rfl rfl, next_of_isSome (by decide)⟩
  simp only [withActions, List.mem_cons, List.not_mem_nil, or_false] at he
  rcases he with rfl | rfl | rfl | rfl | rfl
  · exact .inl rfl
  · exact .inr ⟨_, _, _, rfl, by decide⟩
  · exact .inl rfl
  · exact .inl rfl
  · exact .inr ⟨_, _, _, rfl, by decide⟩

theorem witness_StepKeepsMemoryCanonical :
    let s := started .swap frame chroma
    s.mem.wf = true ∧ ∃ t, step s = .next t :=
  ⟨by decide, next_of_isSome (by decide)⟩

/-- A command not begun has made no wrong progress. -/
theorem no_progress {s : State} (h : s.progress = none) : ProgressAgrees s := fun p hp => by
  rw [h] at hp
  cases hp

/-- A coherent state in the middle of a command, and its step. -/
theorem witness_StepKeepsTheEngineCoherent :
    let s := withActions (started .pcopy { frame with width := 1, height := 1 } luma) [.engine]
    Coherent s ∧ ∃ t, step s = .next t :=
  ⟨⟨rfl, no_progress rfl, fun _ => rfl, by decide, fun h => Bool.noConfusion h⟩, next_of_isSome (by decide)⟩

/-- A coherent state of each phase. -/
theorem witness_PhaseIsReadableInStatus :
    Coherent State.reset ∧ Coherent (started .swap frame chroma) ∧ Coherent waiting :=
  ⟨⟨by simp [StatusAgrees, State.reset], no_progress rfl, fun h => absurd rfl h, by decide, fun h => Bool.noConfusion h⟩,
    ⟨rfl, no_progress rfl, fun _ => rfl, by decide, fun h => Bool.noConfusion h⟩,
    ⟨rfl, no_progress rfl, fun _ => rfl, by decide, fun h => Bool.noConfusion h⟩⟩

theorem witness_OnlyStartLeavesIdle :
    let s := withActions State.reset [wr .ctrl 1]
    s.phase = .idle ∧ ∃ t, step s = .next t ∧ t.phase ≠ .idle :=
  ⟨rfl, _, rfl, by decide⟩

/-- The registers change by a write in IDLE, and by reset. -/
theorem witness_OnlyTheHostWritesRegisters :
    (∃ t, step (withActions State.reset [wr .width 5]) = .next t ∧ t.regs ≠ (withActions State.reset [wr .width 5]).regs) ∧
      ∃ t, step (withActions waiting [.reset true]) = .next t ∧ t.regs ≠ waiting.regs :=
  ⟨⟨_, rfl, by decide⟩, ⟨_, rfl, by decide⟩⟩

/-- Memory changes outside BUSY by another agent's write, and by an overlay draw; a step of the engine in OVLWAIT, alone
and as an action. -/
theorem witness_EngineReachesMemoryOnlyWhileBusy :
    (∃ t, step (withActions State.reset [.mem .decoder 0x1000 (some 7)]) = .next t ∧ t.mem ≠ State.reset.mem) ∧
      (∃ t, step (withActions waiting [.ack [(0x2000, 7)]]) = .next t ∧ t.mem ≠ waiting.mem) ∧
      (waiting.phase ≠ .busy ∧ waiting.env = [] ∧ ∃ t, step waiting = .next t) ∧ ∃ t, step (withActions waiting [.engine]) = .next t :=
  ⟨⟨_, rfl, by decide⟩, ⟨_, rfl, by decide⟩, ⟨by decide, rfl, _, rfl⟩, _, rfl⟩

/-! ### The premises of a launch (70 R247) -/

/-- `HandsOff`: another agent may neither write a byte the command accesses nor read one it writes; the bytes of a draw
count like any other write (70 R238). -/
theorem test_handsOff :
    let xs := (launch .pcopy { frame with width := 1, height := 1 }).accesses
    [Event.mem .overlay 0x2000 (some 7), .ack [(0x3000, 1), (0x2000, 7)], .ack [(0x1000, 7)], .mem .decoder 0x2000 none].map (handsOff xs) =
        [false, false, false, false] ∧
      [Event.mem .decoder 0x1000 none, .ack [(0x2001, 7)], .engine].map (handsOff xs) = [true, true, true] := by decide

theorem test_idle : Idle State.reset ∧ ¬ Idle (started .swap frame chroma) ∧ ¬ Idle waiting := by decide

/-- `ovl_ack` tied high meets `OverlayAcks`, before and during a request (60 R214). -/
theorem witness_OverlayAcks : OverlayAcks { State.reset with ovlAck := true } ∧ OverlayAcks { waiting with ovlAck := true } :=
  ⟨overlayAcks_of_tied ⟨rfl, rfl, rfl⟩, overlayAcks_of_tied ⟨rfl, rfl, rfl⟩⟩

/-- A draw outside the frame does not meet it (70 R242). -/
theorem test_overlayAcks_refused : ¬ OverlayAcks (withActions waiting [.ack [(0x2010, 7)]]) := fun h =>
  (h 0 _ rfl).1 rfl

/-- No write is a conflict for a command that accesses nothing. -/
theorem witness_HandsOff : HandsOff (withActions (started .reservedOp6 frame []) [.mem .decoder 0x2000 (some 1)]) := fun _ _ _ _ e _ _ => by
  rw [show (launch (withActions (started .reservedOp6 frame []) [.mem .decoder 0x2000 (some 1)]).command
    (withActions (started .reservedOp6 frame []) [.mem .decoder 0x2000 (some 1)]).latch).accesses = [] by decide]
  rcases e with _ | ⟨_, _, _ | _⟩ | _ | _ | _ | _ | _ <;> simp [handsOff, leavesAlone, writeSet]

end Sys2Proof.Tests
end

/-! ## The register interface -/

namespace Sys2Proof.Proofs

open Sys2Proof.Machine Sys2Proof.Safety Sys2Proof.Laws

/-! ### What a register reads after a write -/

theorem cmdStored_idem (w : Word) : cmdStored (cmdStored w) = cmdStored w := by
  simp only [cmdStored, BitVec.and_assoc, BitVec.and_self]

/-- A read looks at the registers and at STATUS only. -/
theorem readReg_congr {s t : State} (hr : t.regs = s.regs) (hs : t.status = s.status) (q : Reg) :
    readReg t q = readReg s q := by
  cases q <;> simp only [readReg, hr, hs]

/-- The register written reads the value (CMD its bits 9:0), CTRL and STATUS excepted (10 R27). -/
theorem readReg_set_same (s : State) {r : Reg} (v : Word) (hc : r ≠ .ctrl) (hs : r ≠ .status) :
    readReg { s with regs := s.regs.set r v } r = if r = .cmd then cmdStored v else v := by
  cases r <;> trivial

/-- Every register but the one written reads as before. -/
theorem readReg_set_ne (s : State) {r q : Reg} (v : Word) (h : q ≠ r) :
    readReg { s with regs := s.regs.set r v } q = readReg s q := by
  cases r <;> cases q <;> trivial

/-! ### A register access as a step -/

/-- An aligned 32-bit access is `accessReg` of the state with the action consumed. -/
theorem step_reg {s : State} {size off : Nat} {d : Option Word} {es : List Event} (h : s.env = .reg size off d :: es) :
    step s = accessReg size off d { s.tick with env := es } := step_action h

theorem ofOffset_eq_none {off : Nat} (h : ∀ r : Reg, r.offset ≠ off) : Reg.ofOffset off = none :=
  Option.eq_none_iff_forall_not_mem.2 fun r hr => h r (offset_of_ofOffset hr)

/-- Bit 0 of the value is what a write of CTRL looks at (10 R26). -/
theorem and_one_eq_one_iff (v : Word) : v &&& 1 = 1 ↔ v.getLsbD 0 = true := by
  rw [show (1 : Word) = 1#32 from rfl, BitVec.and_one_eq_setWidth_ofBool_getLsbD]
  cases v.getLsbD 0 <;> decide

/-- Settles O10: a write in IDLE is `Regs.set`, outside IDLE it is ignored. -/
theorem registerWritesTakeEffectOnlyInIdle : Obligations.RegisterWritesTakeEffectOnlyInIdle := by
  intro s r v es he
  refine ⟨fun hi => ?_, fun hi hr hc => ⟨s.regs.set r v, ?_, fun q => ?_⟩⟩
  · rw [step_wr he, writeReg_not_idle r v (by exact hi)]
  · rw [step_wr he, writeReg_idle v (by exact hi) (by exact hr) hc]
    rfl
  · by_cases hq : q = r
    · subst hq
      by_cases hs : q = .status
      · subst hs
        rfl
      · rw [readReg_set_same s v hc hs, if_pos (And.intro rfl hs), cmdStored]
    · rw [readReg_set_ne s v hq, if_neg fun h => hq h.1]

/-- Settles O11: the offset names the register, and the read looks at nothing the step changed. -/
theorem registerReadsHaveNoSideEffect : Obligations.RegisterReadsHaveNoSideEffect := by
  intro s r es he
  refine ⟨?_, rfl⟩
  have hread : readReg { s.tick with env := es } r = readReg s r := readReg_congr rfl rfl r
  simp only [step_reg he, accessReg, offset_aligned, ofOffset_offset, and_self, if_true, hread]

/-- Settles O12: such an offset names no register. -/
theorem offsetsOutsideTheMapHoldNothing : Obligations.OffsetsOutsideTheMapHoldNothing := by
  intro s off es ha hoff
  have hnone := ofOffset_eq_none hoff
  constructor
  · intro he
    simp only [step_reg he, accessReg, ha, hnone, and_self, if_true]
  · intro v he
    simp only [step_reg he, accessReg, ha, hnone, and_self, if_true]

/-- Settles O13: such an access fails the test of `accessReg`. -/
theorem otherRegisterAccessesAreRefused : Obligations.OtherRegisterAccessesAreRefused := by
  intro s size off d es he hbad
  have hn : ¬ (size = 4 ∧ off % 4 = 0) := by omega
  simp only [step_reg he, accessReg, hn, if_false]

/-- Settles O14: a write of CTRL in IDLE starts a command when bit 0 is 1. -/
theorem startLatchesTheRegisters : Obligations.StartLatchesTheRegisters := by
  intro s v es hr he
  rw [step_wr he]
  by_cases hi : s.phase = .idle
  · rw [writeReg_ctrl v (by exact hi) (by exact hr)]
    by_cases hv : v.getLsbD 0 = true
    · rw [if_pos hv, if_pos ⟨hi, (and_one_eq_one_iff v).2 hv⟩]
      rfl
    · rw [if_neg hv, if_neg fun h => hv ((and_one_eq_one_iff v).1 h.2)]
  · rw [writeReg_not_idle .ctrl v (by exact hi), if_neg fun h => hi h.1]

end Sys2Proof.Proofs

/-! ## The engine's invariant -/

namespace Sys2Proof.Proofs

open Sys2Proof.Machine Sys2Proof.Safety Sys2Proof.Laws

/-! ### STATUS -/

/-- The values STATUS can have in IDLE (10 R32). -/
def idleStatus : List Word := [0x00, 0x12, 0x1A, 0x22, 0x32, 0x42, 0x52, 0x62]

theorem statusAgrees_iff (s : State) :
    StatusAgrees s ↔ (s.phase = .idle ∧ s.status ∈ idleStatus) ∨ (s.phase = .busy ∧ s.status = 0x01) ∨
      (s.phase = .ovlWait ∧ s.status = 0x05) := by
  unfold StatusAgrees idleStatus
  cases s.phase <;> simp only [reduceCtorEq, true_and, false_and, false_or, or_false]

theorem statusStarted_eq : statusStarted = 0x01 := by decide
theorem statusRequest_eq : statusRequest = 0x05 := by decide
theorem statusAcknowledged_eq : statusAcknowledged = 0x1A := by decide

theorem statusFinished_mem_idleStatus {code : OutcomeCode} (h : code ≠ .none) : statusFinished code ∈ idleStatus := by
  cases code with
  | none => exact absurd rfl h
  | ok | skipErr | skipOdd | skipShared | skipBadFmt | skipBadOp => decide

/-! ### Launches and progress -/

theorem launchConvert_outcome_ne_none (fmt : Format) (order share err : Bool) (l : Regs) :
    (launchConvert fmt order share err l).outcome ≠ .none := by
  unfold launchConvert
  split_ifs <;> exact nofun

/-- Every command ends with one of the six outcomes of 60 R200, never with 0. -/
theorem launch_outcome_ne_none (i : Instr) (l : Regs) : (launch i l).outcome ≠ .none := by
  cases i with
  | convertP420 o s e | convertSpab o s e | convertSpba o s e | convertRgb565 o s e | convertRgb8888 o s e
  | convertReserved5 o s e | convertReserved6 o s e | convertReserved7 o s e =>
    exact launchConvert_outcome_ne_none _ o s e l
  | pcopy | deint | swap | rgb565 | rgb8888 => exact nofun
  | reservedOp6 | reservedOp7 | reservedOp8 | reservedOp9 | reservedOp10
  | reservedOp11 | reservedOp12 | reservedOp13 | reservedOp14 | reservedOp15 => exact nofun

/-- What a running command still has to do ends as its launch does, and is a final part of its accesses. -/
theorem current_agrees {s : State} (h : ProgressAgrees s) :
    (s.current (launch s.command s.latch)).outcome = (launch s.command s.latch).outcome ∧
      (s.current (launch s.command s.latch)).overlay = (launch s.command s.latch).overlay ∧
      (s.current (launch s.command s.latch)).pending <:+ (launch s.command s.latch).accesses := by
  cases hp : s.progress with
  | none =>
    rw [current_started _ hp]
    exact ⟨rfl, rfl, List.suffix_refl _⟩
  | some p =>
    rw [current_running _ hp]
    exact (h p hp).2

/-- Only a command in BUSY has progress (10 R41, R42). -/
theorem progress_eq_none {s : State} (h : ProgressAgrees s) (hb : s.phase ≠ .busy) : s.progress = none :=
  Option.eq_none_iff_forall_not_mem.2 fun p hp => hb (h p hp).1

theorem progressAgrees_of_none {s : State} (h : s.progress = none) : ProgressAgrees s := fun p hp => by
  rw [h] at hp
  cases hp

/-! ### CMD holds no reserved bit -/

/-- A register write stores bits 9:0 of CMD alone (10 R27). -/
theorem set_cmd_stored {r : Regs} (reg : Reg) (v : Word) (h : r.cmd &&& 0x3FF = r.cmd) :
    (r.set reg v).cmd &&& 0x3FF = (r.set reg v).cmd := by
  by_cases hr : reg = .cmd
  · subst hr
    exact cmdStored_idem v
  · have hkeep : (r.set reg v).cmd = r.cmd := by cases reg <;> trivial
    rw [hkeep, h]

theorem zero_cmd_stored : Regs.zero.cmd &&& 0x3FF = Regs.zero.cmd := by decide

/-! ### The invariant in each phase a step can reach -/

/-- In IDLE the invariant asks for no latch and no progress. -/
theorem coherent_idle {t : State} (hp : t.phase = .idle) (hs : t.status ∈ idleStatus) (hn : t.progress = none)
    (hc : t.regs.cmd &&& 0x3FF = t.regs.cmd) (hr : t.resetPin = true → t.status = 0 ∧ t.regs = Regs.zero) :
    Coherent t :=
  ⟨(statusAgrees_iff t).2 (.inl ⟨hp, hs⟩), progressAgrees_of_none hn, fun h => absurd hp h, hc,
    fun h => ⟨hp, hr h⟩⟩

/-- The invariant speaks of nothing but what `SameEngine` keeps. -/
theorem coherent_of_sameEngine {s t : State} (h : SameEngine s t) (hc : Coherent s) : Coherent t := by
  obtain ⟨_, hregs, hstatus, hphase, hlatch, hprogress, hreset⟩ := h
  simpa only [Coherent, StatusAgrees, ProgressAgrees, State.command, hregs, hstatus, hphase, hlatch, hprogress, hreset]
    using hc

/-- The end of BUSY (10 R38): OVLWAIT with the request, or IDLE with the outcome. -/
theorem coherent_endBusy {s : State} {code : OutcomeCode} (overlay : Bool) (hcode : code ≠ .none)
    (hl : s.latch = s.regs) (hc : s.regs.cmd &&& 0x3FF = s.regs.cmd) (hr : s.resetPin = false) :
    Coherent (endBusy code overlay s) := by
  have hnr : ¬ s.resetPin = true := by simp [hr]
  cases overlay with
  | false => exact coherent_idle rfl (statusFinished_mem_idleStatus hcode) rfl hc fun h => absurd h hnr
  | true =>
    exact ⟨(statusAgrees_iff _).2 (.inr (.inr ⟨rfl, statusRequest_eq⟩)), progressAgrees_of_none rfl, fun _ => hl, hc,
      fun h => absurd h hnr⟩

/-- START (10 R36) latches the registers. -/
theorem coherent_startCommand {s : State} (hc : s.regs.cmd &&& 0x3FF = s.regs.cmd) (hr : s.resetPin = false) :
    Coherent (startCommand s) :=
  ⟨(statusAgrees_iff _).2 (.inr (.inl ⟨rfl, statusStarted_eq⟩)), progressAgrees_of_none rfl, fun _ => rfl, hc,
    fun h => absurd h (by simp [hr])⟩

/-- Driving `reset` (70 R230): asserted, everything is at its reset value; released, the engine is as it was. -/
theorem coherent_driveReset {s : State} (b : Bool) (h : Coherent s) : Coherent (driveReset b s) := by
  obtain ⟨hs, hp, hl, hc, _⟩ := h
  cases b with
  | true => exact coherent_idle rfl List.mem_cons_self rfl zero_cmd_stored fun _ => ⟨rfl, rfl⟩
  | false => exact ⟨hs, hp, hl, hc, fun h => nomatch h⟩

/-- One access of the running command (10 R37) leaves a shorter final part. -/
theorem coherent_access {s t : State} (h : Coherent s) (hb : s.phase = .busy) {x : Access} {xs : List Access}
    (hx : (s.current (launch s.command s.latch)).pending = x :: xs) {w : Work}
    (he : SameEngine { s with progress := some { s.current (launch s.command s.latch) with pending := xs, work := w } } t) :
    Coherent t := by
  obtain ⟨hs, hp, hl, hc, hr⟩ := h
  obtain ⟨houtcome, hoverlay, hsuffix⟩ := current_agrees hp
  rw [hx] at hsuffix
  refine coherent_of_sameEngine he ⟨hs, ?_, hl, hc, hr⟩
  rintro p ⟨rfl⟩
  exact ⟨hb, houtcome, hoverlay, (List.suffix_cons x xs).trans hsuffix⟩

/-- Every change of `Change` keeps the invariant. -/
theorem coherent_of_change {s t : State} (h : Coherent s) (hst : Change s t) : Coherent t := by
  have ⟨hs, hp, hl, hc, hr⟩ := h
  have notBusy {q : Phase} (hq : s.phase = q) (hne : q ≠ .busy) : s.progress = none :=
    progress_eq_none hp (hq ▸ hne)
  cases hst with
  | quiet he _ => exact coherent_of_sameEngine he h
  | otherWrite _ _ _ _ _ he _ => exact coherent_of_sameEngine he h
  | regWrite r v es _ hi hreset _ ht =>
    subst ht
    have hmem : s.status ∈ idleStatus := by simpa [statusAgrees_iff, hi] using hs
    exact coherent_idle hi hmem (notBusy hi nofun) (set_cmd_stored r v hc) fun hh => by simp [hreset] at hh
  | start v es _ _ hreset _ ht => exact ht ▸ coherent_startCommand hc hreset
  | access hb _ x xs hx ht =>
    obtain ⟨es, rfl⟩ := ht
    exact coherent_access h hb hx ⟨rfl, rfl, rfl, rfl, rfl, rfl, rfl⟩
  | finish hb hreset xs _ ht =>
    obtain ⟨d, es, rfl⟩ := ht
    refine coherent_endBusy _ ?_ (hl (by simp [hb])) hc hreset
    rw [(current_agrees hp).1]
    exact launch_outcome_ne_none _ _
  | ack ho draw _ _ _ he hend =>
    obtain ⟨_, hregs, _, hprogress, hreset⟩ := he
    refine coherent_idle hend.1 (by rw [hend.2]; decide) (hprogress.trans (notBusy ho nofun)) (by rw [hregs, hc]) ?_
    intro hh
    simp [(hr (hreset ▸ hh)).1] at ho
  | reset b es _ ht => exact ht ▸ coherent_driveReset b h

/-- Settles O55: every change a step can make keeps the invariant. -/
theorem stepKeepsTheEngineCoherent : Obligations.StepKeepsTheEngineCoherent :=
  fun _ _ h hst => coherent_of_change h (step_change hst)

/-- Settles O56. -/
theorem resetIsCoherentAndCanonical : Obligations.ResetIsCoherentAndCanonical :=
  ⟨coherent_idle rfl List.mem_cons_self rfl zero_cmd_stored fun h => (nomatch h), wf_nil⟩

/-! ### Reading the phase in STATUS -/

/-- What bits 0, 1, 3 and 7:4 tell of a STATUS value of IDLE (10 R32). -/
theorem idleStatus_bits : ∀ w ∈ idleStatus, w.getLsbD 0 = false ∧ (w.getLsbD 1 = false → w.extractLsb' 4 4 = 0) ∧
    (w.getLsbD 3 = true → w.getLsbD 1 = true) := by
  simp [idleStatus]

/-- Settles O57: STATUS, given the phase, is one of ten values. -/
theorem phaseIsReadableInStatus : Obligations.PhaseIsReadableInStatus := by
  intro s h
  rcases (statusAgrees_iff s).1 h.1 with ⟨hp, hs⟩ | ⟨hp, hs⟩ | ⟨hp, hs⟩
  · obtain ⟨hbusy, hout, hovl⟩ := idleStatus_bits _ hs
    simp only [State.busy, State.done, State.ovlDone, State.outcome, hp, hbusy]
    exact ⟨by simp, by simp, by simp, hout, hovl⟩
  · simp [State.busy, State.ovlReq, State.done, State.ovlDone, State.outcome, hp, hs]
  · simp [State.busy, State.ovlReq, State.done, State.ovlDone, State.outcome, hp, hs]

/-! ### Who writes the registers -/

/-- No step changes the parameters (00 R8). -/
theorem config_of_change {s t : State} (h : Change s t) : t.config = s.config := by
  cases h with
  | quiet he _ => exact he.config
  | otherWrite _ _ _ _ _ he _ => exact he.config
  | regWrite _ _ _ _ _ _ _ ht => rw [ht]; rfl
  | start _ _ _ _ _ _ ht => rw [ht]; rfl
  | access _ _ _ _ _ ht => obtain ⟨es, rfl⟩ := ht; rfl
  | finish _ _ _ _ ht => obtain ⟨d, es, rfl⟩ := ht; exact endBusy_config _ _ _
  | ack _ _ _ _ _ he _ => obtain ⟨hconfig, _⟩ := he; exact hconfig
  | reset b _ _ ht => rw [ht, driveReset_config]; rfl

/-- Settles O59: of the changes a step can make only a register write and the assertion of `reset` touch registers. -/
theorem onlyTheHostWritesRegisters : Obligations.OnlyTheHostWritesRegisters := by
  intro s t hst
  have hch := step_change hst
  refine ⟨config_of_change hch, fun hne => ?_⟩
  cases hch with
  | quiet he _ => exact absurd he.regs hne
  | otherWrite _ _ _ _ _ he _ => exact absurd he.regs hne
  | regWrite r v es hw hi _ _ ht => exact .inl ⟨hi, r, v, es, hw, by rw [ht]⟩
  | start _ _ _ _ _ _ ht => exact absurd (by rw [ht]; rfl) hne
  | access _ _ _ _ _ ht => obtain ⟨es, rfl⟩ := ht; exact absurd rfl hne
  | finish _ _ _ _ ht => obtain ⟨d, es, rfl⟩ := ht; exact absurd (endBusy_regs _ _ _) hne
  | ack _ _ _ _ _ he _ => obtain ⟨_, hregs, _⟩ := he; exact absurd hregs hne
  | reset b es hw ht =>
    cases b with
    | true => exact .inr ⟨es, hw, by rw [ht]; rfl⟩
    | false => exact absurd (by rw [ht]; rfl) hne

end Sys2Proof.Proofs

/-! ## Commands: what `exec` answers -/

namespace Sys2Proof.Proofs

open Sys2Proof.Machine Sys2Proof.Safety Sys2Proof.Laws

/-- A command at any point of its progress answers exactly when it is admitted, and then this. -/
theorem exec_next_iff (i : Instr) (s t : State) :
    exec i s = .next t ↔
      (s.current (launch i s.latch)).admitted s.config = true ∧
        t = endBusy (s.current (launch i s.latch)).outcome (s.current (launch i s.latch)).overlay
          { s with mem := (performAll s.config (s.current (launch i s.latch)).pending
            ((s.current (launch i s.latch)).work, s.mem)).2 } := by
  rw [exec_eq, runCommand_next_iff]

/-- Settles O16: `endBusy` keeps these fields, and the accesses write only where they say. -/
theorem commandFrame : Obligations.CommandFrame := by
  intro i s t h
  obtain ⟨_, rfl⟩ := (exec_next_iff i s t).1 h
  have hphase {code : OutcomeCode} {overlay : Bool} {u : State} : (endBusy code overlay u).phase ≠ .busy := by
    rw [endBusy_phase]
    cases overlay <;> exact nofun
  simp only [endBusy_regs, endBusy_latch, endBusy_config, endBusy_resetPin, endBusy_ovlAck, endBusy_readData,
    endBusy_env, endBusy_freeCount, endBusy_progress, endBusy_mem, true_and]
  exact ⟨hphase, fun a ha => performAll_read_of_not_mem s.config _ ha⟩

/-- Settles O39: two runs of one access sequence that read the same bytes write the same bytes. -/
theorem outputDependsOnlyOnTheBytesRead : Obligations.OutputDependsOnlyOnTheBytesRead := by
  intro i s s' t t' hs hs' hl hc hread h h'
  obtain ⟨_, rfl⟩ := exec_started_next hs h
  obtain ⟨_, rfl⟩ := exec_started_next hs' h'
  simp only [endBusy_phase, endBusy_status, endBusy_mem, ← hl, ← hc, true_and]
  exact fun a ha => (performAll_agree s.config _ Work.start s.mem s'.mem hread).2 a (.inl ha)

/-- While the request stands, the bundle shows the latched frame (10 R35). -/
theorem ovlOutputs_of_request {t : State} (h : t.ovlReq = true) :
    t.ovlOutputs = { fmt := cmdFmt t.latch.cmd, dst0Base := t.latch.dst0Base, dst1Base := t.latch.dst1Base,
                     dst2Base := t.latch.dst2Base, dst0Stride := t.latch.dst0Stride, dst1Stride := t.latch.dst1Stride,
                     dst2Stride := t.latch.dst2Stride, width := t.latch.width, height := t.latch.height } := by
  rw [State.ovlOutputs, if_pos h]

/-- Settles O48: OVLWAIT is reached only with the overlay flag, and then STATUS is 0x05. -/
theorem requestShowsTheLatchedFrame : Obligations.RequestShowsTheLatchedFrame := by
  intro i s t h hp
  obtain ⟨_, rfl⟩ := (exec_next_iff i s t).1 h
  cases ho : (s.current (launch i s.latch)).overlay with
  | false => simp [endBusy_phase, ho] at hp
  | true =>
    have hreq (u : State) (code : OutcomeCode) : (endBusy code true u).ovlReq = true := by
      simp only [State.ovlReq, endBusy_status_request]
      decide
    refine ⟨statusRequest_eq, hreq _ _, ?_, ?_⟩
    · simp only [State.done, endBusy_status_request]
      decide
    · rw [ovlOutputs_of_request (hreq _ _)]
      rfl

/-! ## The engine and the acknowledge, step by step -/

/-- In BUSY the engine alone runs the latched command to its end. -/
theorem engineRun_busy {s : State} (hb : s.phase = .busy) (hr : s.resetPin = false) :
    engineRun s = exec s.command s := by
  simp only [engineRun, hr, hb, Bool.false_eq_true, if_false]

/-- In IDLE the engine does nothing. -/
theorem engineRun_idle {s : State} (hi : s.phase = .idle) : engineRun s = .next s := by
  simp only [engineRun, hi, ite_self]

/-- Settles O5: in the three cases the step is the engine running alone. -/
theorem stepRunsTheStartedCommand : Obligations.StepRunsTheStartedCommand := by
  intro s hb hr
  refine ⟨fun he => ?_, fun es he hd => ?_, fun draw es he => ?_⟩
  · rw [step_alone he]
    exact engineRun_busy hb hr
  · have hd' : s.tick.done = false := hd
    rw [step_action he, act, pollDone, if_neg (by simp [hd'])]
    exact engineRun_busy hb hr
  · have hb' : s.tick.phase = .busy := hb
    simp only [step_action he, act, awaitRequest, hb']
    exact engineRun_busy hb hr

/-- Settles O49: the level is sampled by the engine alone, the draw is taken whole. -/
theorem acknowledgeCompletesTheCommand : Obligations.AcknowledgeCompletesTheCommand := by
  intro s hr
  refine ⟨fun hack he => ⟨fun ho => ?_, fun hi => ?_⟩, fun draw es he => ⟨fun ho hd => ?_, step_ack_idle he⟩⟩
  · rw [step_overlayTied ⟨hack, he, hr⟩ ho, acknowledge, statusAcknowledged_eq]
  · rw [step_alone he]
    exact engineRun_idle hi
  · have htaken : drawBytes draw { s.tick with env := es } = .next _ :=
      (drawBytes_next_iff draw _ _).2 ⟨fun d hm => ⟨(hd d hm).1, (mayWrite_overlay _ _).2 ⟨ho, (hd d hm).2⟩⟩, rfl⟩
    rw [step_ack_ovlWait he ho, answerRequest, htaken, ← statusAcknowledged_eq]
    rfl

/-! ### Single engine steps add up to `exec` -/

/-- The end of BUSY drops the progress and carries the actions and the counter along. -/
theorem endBusy_carries (code : OutcomeCode) (overlay : Bool) (s : State) (p : Option Progress) (es : List Event)
    (n : Nat) :
    endBusy code overlay { s with progress := p, env := es, freeCount := n } =
      { endBusy code overlay s with env := es, freeCount := n } := by
  cases overlay <;> rfl

/-- After one access of an admitted command, taken as a step, the rest of the command still ends where the whole
would have ended, the action consumed and the counter advanced. -/
theorem step_engine_access {s t : State} {es : List Event} {x : Access} {xs : List Access} (hb : s.phase = .busy)
    (hr : s.resetPin = false) (h : exec s.command s = .next t) (he : s.env = .engine :: es)
    (hx : (s.current (launch s.command s.latch)).pending = x :: xs) :
    ∃ u, step s = .next u ∧ u.phase = .busy ∧ u.resetPin = false ∧ u.env = es ∧ u.freeCount = s.freeCount + 1 ∧
      (u.current (launch u.command u.latch)).pending = xs ∧
      exec u.command u = .next { t with env := es, freeCount := s.freeCount + 1 } := by
  obtain ⟨ha, rfl⟩ := (exec_next_iff _ _ _).1 h
  refine ⟨_, (step_engine_busy he hb hr).trans (stepCommand_access (by exact ha) (by exact hx)), hb, hr, rfl, rfl, rfl, ?_⟩
  rw [exec_next_iff]
  refine ⟨(admitted_iff _ _).2 fun y hy => (admitted_iff _ _).1 ha y (hx ▸ List.mem_cons_of_mem _ hy), ?_⟩
  rw [← endBusy_carries _ _ _ (some _), hx]
  rfl

/-- The last step of an admitted command is the end of BUSY. -/
theorem step_engine_finish {s t : State} {es : List Event} (hb : s.phase = .busy) (hr : s.resetPin = false)
    (h : exec s.command s = .next t) (he : s.env = .engine :: es)
    (hx : (s.current (launch s.command s.latch)).pending = []) :
    step s = .next { t with env := es, freeCount := s.freeCount + 1 } := by
  obtain ⟨ha, rfl⟩ := (exec_next_iff _ _ _).1 h
  rw [step_engine_busy he hb hr, stepCommand_finish (by exact ha) (by exact hx), ← endBusy_carries _ _ _ s.progress, hx]
  rfl

/-- Engine steps, one more than there are accesses left, end where `exec` ends. -/
theorem run_engine_steps {s t : State} (xs : List Access) (hb : s.phase = .busy) (hr : s.resetPin = false)
    (h : exec s.command s = .next t) (hx : (s.current (launch s.command s.latch)).pending = xs)
    (he : s.env = List.replicate (xs.length + 1) .engine) :
    core.run (xs.length + 1) s = .next { t with env := [], freeCount := s.freeCount + xs.length + 1 } := by
  induction xs generalizing s t with
  | nil => exact (run_next 0 (step_engine_finish hb hr h he hx)).trans (run_zero _)
  | cons x xs ih =>
    obtain ⟨u, hu, hub, hur, hue, huf, hux, huexec⟩ := step_engine_access hb hr h he hx
    rw [run_next _ hu, List.length_cons, ih hub hur huexec hux hue, huf]
    simp only [Nat.add_comm, Nat.add_left_comm]

/-- Settles O52. -/
theorem engineStepsMakeTheWholeCommand : Obligations.EngineStepsMakeTheWholeCommand :=
  fun _ _ hb hr h he => run_engine_steps _ hb hr h rfl he

/-! ## How a program comes to run -/

/-! ### Ignored bits and the words of commands -/

theorem cmdOp_cmdStored (w : Word) : cmdOp (cmdStored w) = cmdOp w := by
  rw [cmdOp, cmdStored, BitVec.extractLsb'_and]
  exact BitVec.and_allOnes

theorem cmdFmt_cmdStored (w : Word) : cmdFmt (cmdStored w) = cmdFmt w := by
  rw [cmdFmt, cmdStored, BitVec.extractLsb'_and]
  exact BitVec.and_allOnes

/-- The bits CMD does not store are bits no command looks at (10 R27, 30 R99 d). -/
theorem decode_cmdStored (w : Word) : decode (cmdStored w) = decode w := by
  have hbit (k : Nat) (hk : (0x3FF : Word).getLsbD k = true) : (cmdStored w).getLsbD k = w.getLsbD k := by
    rw [cmdStored, BitVec.getLsbD_and, hk, Bool.and_true]
  simp only [decode, cmdOp_cmdStored, cmdFmt_cmdStored, cmdOrder, cmdShare, cmdErr, hbit 7 (by decide),
    hbit 8 (by decide), hbit 9 (by decide)]

/-- Decoding undoes encoding (30 R92). -/
theorem decode_encode (i : Instr) : decode (encode i) = i := by
  cases i <;> decide +revert

/-- The word of a written command means that command, its ignored modifiers dropped (30 R102, R99 c). -/
theorem decode_word (c : Command) : decode c.word = c.instr := by
  obtain ⟨m, bf, share, err⟩ := c
  cases m <;> decide +revert

open ReservedBitsZero in
/-- CMD stores the word of a command whole. -/
theorem cmdStored_encode : ∀ i : Instr, cmdStored (encode i) = encode i
  | .convertP420 o s e => convertP420 o s e
  | .convertSpab o s e => convertSpab o s e
  | .convertSpba o s e => convertSpba o s e
  | .convertRgb565 o s e => convertRgb565 o s e
  | .convertRgb8888 o s e => convertRgb8888 o s e
  | .pcopy => pcopy
  | .deint o => deint o
  | .swap => swap
  | .rgb565 o => rgb565 o
  | .rgb8888 o => rgb8888 o
  | .convertReserved5 o s e => convertReserved5 o s e
  | .convertReserved6 o s e => convertReserved6 o s e
  | .convertReserved7 o s e => convertReserved7 o s e
  | .reservedOp6 => reservedOp6
  | .reservedOp7 => reservedOp7
  | .reservedOp8 => reservedOp8
  | .reservedOp9 => reservedOp9
  | .reservedOp10 => reservedOp10
  | .reservedOp11 => reservedOp11
  | .reservedOp12 => reservedOp12
  | .reservedOp13 => reservedOp13
  | .reservedOp14 => reservedOp14
  | .reservedOp15 => reservedOp15

/-- CMD stores the word of a written command whole, modifiers it ignores included. -/
theorem cmdStored_word (c : Command) : cmdStored c.word = c.word := by
  obtain ⟨m, bf, share, err⟩ := c
  cases m <;> decide +revert

/-! ### The two writes -/

/-- The state the HOST's writes of CMD and of START leave: `word` stored in CMD, the command just started, no action
left, two steps taken. -/
def writtenAndStarted (s : State) (word : Word) : State :=
  startCommand { s with regs := { s.regs with cmd := word }, env := [], freeCount := s.freeCount + 2 }

/-- `GO` in IDLE is START (30 R103). -/
theorem step_go {s : State} {es : List Event} (hi : s.phase = .idle) (hr : s.resetPin = false)
    (he : s.env = wr .ctrl 1 :: es) : step s = .next (startCommand { s.tick with env := es }) := by
  rw [step_wr he, writeReg_ctrl 1 (by exact hi) (by exact hr), if_pos (by decide)]

/-- From IDLE, `WR CMD, w` and `GO` take two steps. -/
theorem run_cmd_go {s : State} {w : Word} (hi : s.phase = .idle) (hr : s.resetPin = false)
    (he : s.env = [wr .cmd w, wr .ctrl 1]) : core.run 2 s = .next (writtenAndStarted s (cmdStored w)) := by
  have hcmd : step s = .next { s.tick with env := [wr .ctrl 1], regs := s.regs.set .cmd w } := by
    rw [step_wr he, writeReg_idle w (by exact hi) (by exact hr) (by decide)]
    rfl
  exact (run_next 1 hcmd).trans (run_next 0 (step_go hi hr rfl))

/-- The next step runs the command written. -/
theorem step_writtenAndStarted {s : State} (w : Word) (hr : s.resetPin = false) :
    step (writtenAndStarted s (cmdStored w)) = exec (decode w) (writtenAndStarted s (cmdStored w)).tick := by
  rw [step_alone rfl, engineRun_busy rfl (by exact hr), ← decode_cmdStored w]
  rfl

/-- `withFetchWord` reaches the same state, up to the step counter. -/
theorem writtenAndStarted_eq_withFetchWord {s : State} {word : Word} (hr : s.resetPin = false)
    (hw : cmdStored word = word) :
    writtenAndStarted s word = { s.withFetchWord 32 word.toNat with freeCount := s.freeCount + 2 } := by
  have hword : BitVec.ofNat 32 (word.toNat % 2 ^ 32) = word := by
    rw [Nat.mod_eq_of_lt word.isLt, BitVec.ofNat_toNat, BitVec.setWidth_eq]
  rw [State.withFetchWord, hword, placeCommand, Regs.set, hw, ← hr]
  rfl

/-- Settles O6: all three programs write CMD and START; they differ in the word alone. -/
theorem hostWritesStartTheCommand : Obligations.HostWritesStartTheCommand := by
  intro s hi hr starts
  have key (w : Word) (he : s.env = [wr .cmd w, wr .ctrl 1]) : starts (cmdStored w) (decode w) :=
    ⟨writtenAndStarted s (cmdStored w), run_cmd_go hi hr he, rfl, statusStarted_eq, rfl, rfl, rfl, rfl,
      step_writtenAndStarted w hr, writtenAndStarted_eq_withFetchWord hr (cmdStored_idem w)⟩
  refine ⟨key, fun c he => ?_, fun i he => ?_⟩
  · have h := key c.word he
    rwa [cmdStored_word, decode_word] at h
  · have h := key (encode i) he
    rwa [cmdStored_encode, decode_encode] at h

/-! ## Reset -/

/-- With no window the de-interleaver and the luma copy have no byte to access. -/
theorem launch_zero_convertP420 : launch (.convertP420 false false false) Regs.zero = ⟨[], .ok, true⟩ := by decide

/-- Settles O7. -/
theorem resetLeavesTheStatedValues : Obligations.ResetLeavesTheStatedValues := by
  refine ⟨fun r => ?_, rfl, rfl, by decide, by decide, rfl, ?_, by decide, launch_zero_convertP420,
    fun b s => driveReset_mem s b⟩
  · cases r <;> rfl
  · rw [State.ovlOutputs, if_neg (by decide)]

end Sys2Proof.Proofs

/-! ## Memory -/

namespace Sys2Proof.Proofs

open Sys2Proof.Machine Sys2Proof.Safety Sys2Proof.Laws

/-! ### The canonical form -/

/-- The bytes of a draw, written in order, keep the canonical form. -/
theorem foldl_write_wf (draw : List (Addr × Byte)) {m : Memory} (h : m.wf = true) :
    (draw.foldl (fun m d => m.write d.1 d.2) m).wf = true := by
  induction draw generalizing m with
  | nil => exact h
  | cons d ds ih => exact ih (write_wf m d.1 d.2 h)

/-- Every change of `Change` keeps the canonical form: each writes byte by byte, or not at all. -/
theorem wf_of_change {s t : State} (h : s.mem.wf = true) (hst : Change s t) : t.mem.wf = true := by
  cases hst with
  | quiet _ hm => rwa [hm]
  | otherWrite _ a v _ _ _ hm => exact hm ▸ write_wf s.mem a v h
  | regWrite _ _ _ _ _ _ _ ht => exact ht ▸ h
  | start _ _ _ _ _ _ ht => exact ht ▸ h
  | access _ _ x _ _ ht =>
    obtain ⟨_, rfl⟩ := ht
    exact perform_wf s.config x _ h
  | finish _ _ xs _ ht =>
    obtain ⟨_, _, rfl⟩ := ht
    rw [endBusy_mem]
    exact performAll_wf s.config xs _ h
  | ack _ draw _ _ hm _ _ => exact hm ▸ foldl_write_wf draw h
  | reset b _ _ ht =>
    rw [ht, driveReset_mem]
    exact h

/-- Settles O54: every change a step can make keeps the canonical form. -/
theorem stepKeepsMemoryCanonical : Obligations.StepKeepsMemoryCanonical :=
  fun _ _ h hst => wf_of_change h (step_change hst)

/-! ### Multi-byte stores -/

/-- Different offsets below 2^32 reach different addresses, also past the top of memory (20 R62). -/
theorem addr_offset_ne (a : Addr) {k n : Nat} (hk : k < n) (hn : n < 4294967296) :
    a + BitVec.ofNat 32 k ≠ a + BitVec.ofNat 32 n := by
  rw [Ne, BitVec.add_right_inj, ← BitVec.toNat_inj, BitVec.toNat_ofNat, BitVec.toNat_ofNat]
  omega

/-- A stored word leaves every byte outside its `n` alone. -/
theorem read_writeWord_ne (m : Memory) (a : Addr) (n : Nat) (w : Word) {b : Addr}
    (h : ∀ k, k < n → b ≠ a + BitVec.ofNat 32 k) : (m.writeWord a n w).read b = m.read b := by
  induction n with
  | zero => rfl
  | succ n ih =>
    rw [Memory.writeWord, read_write_ne _ _ (h n n.lt_succ_self)]
    exact ih fun k hk => h k (Nat.lt_succ_of_lt hk)

/-- Byte `k` of a stored word is read back at offset `k` (20 R64). -/
theorem read_writeWord (m : Memory) (a : Addr) {n k : Nat} (w : Word) (hn : n ≤ 4294967296) (hk : k < n) :
    (m.writeWord a n w).read (a + BitVec.ofNat 32 k) = byteOf w k := by
  induction n with
  | zero => exact absurd hk (Nat.not_lt_zero k)
  | succ n ih =>
    rw [Memory.writeWord]
    rcases Nat.lt_succ_iff_lt_or_eq.1 hk with hlt | rfl
    · rw [read_write_ne _ _ (addr_offset_ne a hlt hn)]
      exact ih (Nat.le_of_lt hn) hlt
    · exact read_write_same _ _ _

/-- Settles O47. -/
theorem wordsAreStoredLowByteFirst : Obligations.WordsAreStoredLowByteFirst :=
  fun m a n w hn => ⟨fun _ hk => read_writeWord m a w (by omega) hk, fun _ hb => read_writeWord_ne m a n w hb⟩

/-! ### Started commands: admission, footprint, a second run -/

/-- A started command with an address outside plain memory is refused (20 R78). -/
theorem exec_started_refused {i : Instr} {s : State} (hp : Started s) (hb : ¬ BuffersOwned i s) :
    exec i s = .refused .unbackedAccess := by
  rw [exec_eq, runCommand, current_started _ hp, if_neg fun ha => hb ((admitted_iff _ _).1 ha)]

/-- Settles O15. -/
theorem commandAdmittedOrRefused : Obligations.CommandAdmittedOrRefused :=
  fun _ _ hp => ⟨fun hb => ⟨_, exec_started hp hb⟩, exec_started_refused hp⟩

/-- A started command leaves every byte outside its write set alone. -/
theorem exec_started_read_of_not_mem {i : Instr} {s t : State} (hp : Started s) (h : exec i s = .next t) {a : Addr}
    (ha : a ∉ writeSet (launch i s.latch).accesses) : t.mem.read a = s.mem.read a := by
  rw [exec_started_mem hp h]
  exact performAll_read_of_not_mem s.config _ ha

/-- Settles O32: each command's write set lies in its rectangle. -/
theorem leafCommandFootprint : Obligations.LeafCommandFootprint := by
  intro order s t a hp
  refine ⟨fun h hout => exec_started_read_of_not_mem hp h fun hm => ?_,
    fun h hout => exec_started_read_of_not_mem hp h fun hm => ?_,
    fun h hout => exec_started_read_of_not_mem hp h fun hm => ?_,
    fun h hout => exec_started_read_of_not_mem hp h fun hm => ?_,
    fun h hout => exec_started_read_of_not_mem hp h fun hm => ?_⟩
  · obtain ⟨r, c, hr, hc, ha⟩ := mem_writeSet_planeCopy hm
    exact hout r c hr hc ha
  · obtain ⟨i, j, hi, hj, ha⟩ := mem_writeSet_deinterleave hm
    exact ha.elim (hout i j hi hj).1 (hout i j hi hj).2
  · obtain ⟨i, c, hi, hc, ha⟩ := mem_writeSet_swapPairs hm
    exact hout i c hi hc ha
  · obtain ⟨r, c, hr, hc, ha⟩ := mem_writeSet_yuvToRgb hm
    rw [PixelKind.bytes] at hc
    exact hout r c hr (by omega) ha
  · obtain ⟨r, c, hr, hc, ha⟩ := mem_writeSet_yuvToRgb hm
    rw [PixelKind.bytes] at hc
    exact hout r c hr (by omega) ha

/-- Settles O40: the second run reads the bytes the first one read, so it writes the bytes the first one wrote. -/
theorem commandOnDisjointBytesIsIdempotent : Obligations.CommandOnDisjointBytesIsIdempotent := by
  intro i s t u hp hd h h' a
  obtain ⟨_, hlatch, hconfig, _, _, _, _, _, hp', _⟩ := commandFrame i s t h
  by_cases ha : a ∈ writeSet (launch i s.latch).accesses
  · have hsame : ∀ b ∈ readSet (launch i s.latch).accesses, t.mem.read b = s.mem.read b :=
      fun b hb => exec_started_read_of_not_mem hp h (hd b hb)
    calc u.mem.read a
        = (performAll s.config (launch i s.latch).accesses (Work.start, t.mem)).2.read a := by
          rw [exec_started_mem hp' h', hlatch, hconfig]
      _ = (performAll s.config (launch i s.latch).accesses (Work.start, s.mem)).2.read a :=
          (performAll_agree s.config _ Work.start _ _ hsame).2 a (.inl ha)
      _ = t.mem.read a := by rw [exec_started_mem hp h]
  · exact exec_started_read_of_not_mem hp' h' (hlatch ▸ ha)

/-! ### The other agents' accesses -/

/-- A byte write of another agent, taken as an action. -/
theorem step_mem {s : State} {who : Agent} {a : Addr} {d : Option Byte} {es : List Event}
    (he : s.env = .mem who a d :: es) : step s = accessMem who a d { s.tick with env := es } := step_action he

/-- A byte write that is taken changes memory at that byte alone, and no other field. -/
theorem accessMem_write_next {who : Agent} {a : Addr} {v : Byte} {s t : State}
    (h : accessMem who a (some v) s = .next t) : t = { s with mem := s.mem.write a v } := by
  simp only [accessMem] at h
  split_ifs at h
  exact (Host.Outcome.next.inj h).symm

/-- At plain memory a write the agent may not make is refused (60 R213). -/
theorem accessMem_refused {who : Agent} {a : Addr} (v : Byte) {s : State} (hb : backed s.config a = true)
    (hw : mayWrite s who a = false) : accessMem who a (some v) s = .refused .overlayWriteOutsideFrame := by
  simp [accessMem, hb, hw]

/-- No agent reaches an address that is no plain memory (20 R78). -/
theorem accessMem_unbacked {who : Agent} {a : Addr} (d : Option Byte) {s : State} (hb : backed s.config a = false) :
    accessMem who a d s = .refused .unbackedAccess := by
  simp [accessMem, hb]

/-- An answer whose draw comes to a byte that is refused, is refused. -/
theorem answerRequest_refused {good rest : List (Addr × Byte)} {a : Addr} {v : Byte} {s : State} {r : Refusal}
    (hg : ∀ d ∈ good, backed s.config d.1 = true ∧ mayWrite s .overlay d.1 = true)
    (h : ∀ m, accessMem .overlay a (some v) { s with mem := m } = .refused r) :
    answerRequest (good ++ (a, v) :: rest) s = .refused r := by
  rw [answerRequest, drawBytes_append _ _ _ hg, drawBytes, h]

/-- So is the ACK that makes it, when the bytes before are plain memory inside the frame. -/
theorem step_ack_refused {s : State} {good rest : List (Addr × Byte)} {a : Addr} {v : Byte} {es : List Event}
    {r : Refusal} (he : s.env = .ack (good ++ (a, v) :: rest) :: es) (ho : s.phase = .ovlWait)
    (hg : ∀ d ∈ good, backed s.config d.1 = true ∧ s.latch.inFrame d.1 = true)
    (h : ∀ m, accessMem .overlay a (some v) { s.tick with env := es, mem := m } = .refused r) :
    step s = .refused r :=
  (step_ack_ovlWait he ho).trans
    (answerRequest_refused (fun d hd => (hg d hd).imp id fun hf => (mayWrite_overlay _ _).2 ⟨ho, hf⟩) h)

/-- Settles O51: the window of the OVERLAY agent is `mayWrite`, for a single byte and for each byte of a draw. -/
theorem overlayWritesOnlyItsFrame : Obligations.OverlayWritesOnlyItsFrame := by
  refine ⟨fun s a v es he hb => ⟨fun hw => ?_, fun hw => ?_⟩, fun s good rest a v es he ho hg =>
    ⟨fun hb hf => ?_, fun hb => ?_⟩⟩
  · refine ⟨s.mem.write a v, ?_, read_write_same _ _ _, fun b hne => read_write_ne _ _ hne⟩
    exact (step_mem he).trans ((accessMem_overlay_iff _ _ _ _).2 ⟨⟨hb, (mayWrite_overlay _ _).2 hw⟩, rfl⟩)
  · rw [step_mem he]
    exact accessMem_refused v hb (Bool.eq_false_iff.2 fun h => hw ((mayWrite_overlay _ _).1 h))
  · refine step_ack_refused he ho hg fun m => accessMem_refused v hb (Bool.eq_false_iff.2 fun h => ?_)
    exact Bool.eq_false_iff.1 hf ((mayWrite_overlay _ _).1 h).2
  · exact step_ack_refused he ho hg fun m => accessMem_unbacked _ hb

/-! ### Outside BUSY -/

/-- Outside BUSY a single engine step is what the engine running alone does. -/
theorem engineStep_eq_engineRun {s : State} (h : s.phase ≠ .busy) : engineStep s = engineRun s := by
  unfold engineStep engineRun
  cases hp : s.phase with
  | busy => exact absurd hp h
  | idle | ovlWait => rfl

/-- Outside BUSY the engine observes an acknowledge in OVLWAIT (10 R39), and does nothing else. -/
theorem engineRun_not_busy {s : State} (h : s.phase ≠ .busy) :
    engineRun s =
      .next (if s.resetPin = false ∧ s.phase = .ovlWait ∧ s.ovlAck = true then acknowledge s else s) := by
  unfold engineRun sampleAck
  cases hp : s.phase with
  | busy => exact absurd hp h
  | idle => cases s.resetPin <;> simp
  | ovlWait => cases s.resetPin <;> simp

/-- Outside BUSY the engine leaves memory as it is, and does the same whatever memory holds. -/
theorem engineRun_mem_free {s t : State} (h : s.phase ≠ .busy) (hst : engineRun s = .next t) :
    t.mem = s.mem ∧ ∀ m : Memory, engineRun { s with mem := m } = .next { t with mem := m } := by
  have hm (m : Memory) := engineRun_not_busy (s := { s with mem := m }) h
  by_cases hack : s.resetPin = false ∧ s.phase = .ovlWait ∧ s.ovlAck = true
  · rw [engineRun_not_busy h, if_pos hack] at hst
    cases hst
    exact ⟨rfl, fun m => (hm m).trans (congrArg Host.Outcome.next (if_pos hack))⟩
  · rw [engineRun_not_busy h, if_neg hack] at hst
    cases hst
    exact ⟨rfl, fun m => (hm m).trans (congrArg Host.Outcome.next (if_neg hack))⟩

/-- Outside BUSY a change of memory is another agent's byte write or an overlay draw, and memory is what it makes it. -/
theorem mem_change_not_busy {s t : State} (hb : s.phase ≠ .busy) (hst : Change s t) (hne : t.mem ≠ s.mem) :
    (∃ who a v es, s.env = .mem who a (some v) :: es ∧ t.mem = s.mem.write a v) ∨
      (∃ draw es, s.env = .ack draw :: es ∧ s.phase = .ovlWait ∧
        (∀ d ∈ draw, backed s.config d.1 = true ∧ s.latch.inFrame d.1 = true) ∧
        t.mem = draw.foldl (fun m d => m.write d.1 d.2) s.mem) := by
  cases hst with
  | quiet _ hm => exact absurd hm hne
  | otherWrite who a v es he _ hm => exact .inl ⟨who, a, v, es, he, hm⟩
  | regWrite _ _ _ _ _ _ _ ht => exact absurd (ht ▸ rfl) hne
  | start _ _ _ _ _ _ ht => exact absurd (ht ▸ rfl) hne
  | access hbusy _ _ _ _ _ => exact absurd hbusy hb
  | finish hbusy _ _ _ _ => exact absurd hbusy hb
  | ack ho draw hd hf hm _ _ =>
    rcases hd with rfl | ⟨es, he⟩
    · exact absurd hm hne
    · exact .inr ⟨draw, es, he, ho, hf, hm⟩
  | reset b _ _ ht => exact absurd (by rw [ht, driveReset_mem]; rfl) hne

/-- Settles O60. -/
theorem engineReachesMemoryOnlyWhileBusy : Obligations.EngineReachesMemoryOnlyWhileBusy := by
  intro s t hb hst
  refine ⟨mem_change_not_busy hb (step_change hst), ?_⟩
  rintro (he | ⟨es, he⟩)
  · rw [step_alone he] at hst
    refine (engineRun_mem_free (by exact hb) hst).imp id fun hm m => ?_
    rw [step_alone (by exact he)]
    exact hm m
  · rw [step_engine he, engineStep_eq_engineRun (by exact hb)] at hst
    refine (engineRun_mem_free (by exact hb) hst).imp id fun hm m => ?_
    rw [step_engine (by exact he), engineStep_eq_engineRun (by exact hb)]
    exact hm m

/-! ### Other agents that keep their hands off -/

/-- Two states a command cannot be told apart in: phase, STATUS, and the bytes at the addresses it accesses. -/
structure SameResult (xs : List Access) (s t : State) : Prop where
  phase : t.phase = s.phase
  status : t.status = s.status
  bytes : ∀ x ∈ xs, t.mem.read x.addr = s.mem.read x.addr

theorem SameResult.trans {xs : List Access} {s t u : State} (h : SameResult xs s t) (h' : SameResult xs t u) :
    SameResult xs s u :=
  ⟨h'.phase.trans h.phase, h'.status.trans h.status, fun x hx => (h'.bytes x hx).trans (h.bytes x hx)⟩

/-- The actions to come and the step counter are no part of a result. -/
theorem SameResult.of_carried {xs : List Access} (s : State) (es : List Event) (n : Nat) :
    SameResult xs s { s with env := es, freeCount := n } :=
  ⟨rfl, rfl, fun _ _ => rfl⟩

/-- A byte write of another agent that keeps off these accesses (70 R238). -/
def HandsOffWrite (xs : List Access) (e : Event) : Prop :=
  ∃ who a v, e = .mem who a (some v) ∧ handsOff xs e = true

/-- As a step, such a write changes one byte, at none of these addresses. -/
theorem step_handsOffWrite {xs : List Access} {s u : State} {e : Event} {es : List Event} (h : HandsOffWrite xs e)
    (he : s.env = e :: es) (hst : step s = .next u) :
    ∃ m, u = { s.tick with env := es, mem := m } ∧ ∀ x ∈ xs, m.read x.addr = s.mem.read x.addr := by
  obtain ⟨who, a, v, rfl, hoff⟩ := h
  rw [step_mem he] at hst
  exact ⟨_, accessMem_write_next hst, fun x hx => read_write_ne _ _ (leavesAlone_iff.1 hoff x hx)⟩

/-- A run of such writes leaves phase, STATUS and these bytes. -/
theorem run_handsOffWrites {xs : List Access} {s u : State} (acts : List Event) (he : s.env = acts)
    (h : ∀ e ∈ acts, HandsOffWrite xs e) (hrun : core.run acts.length s = .next u) : SameResult xs s u := by
  induction acts generalizing s with
  | nil =>
    cases hrun
    exact ⟨rfl, rfl, fun _ _ => rfl⟩
  | cons e es ih =>
    rw [List.forall_mem_cons] at h
    obtain ⟨t, hst, hrun⟩ := run_succ hrun
    obtain ⟨m, rfl, hbytes⟩ := step_handsOffWrite h.1 he hst
    have hstep : SameResult xs s { s.tick with env := es, mem := m } := ⟨rfl, rfl, hbytes⟩
    exact hstep.trans (ih rfl h.2 hrun)

/-- On another memory that agrees at the accessed addresses, the rest of a command ends alike there. -/
theorem exec_sameResult {xs : List Access} {s t : State} {i : Instr} (h : exec i s = .next t)
    (hsub : ∀ x ∈ (s.current (launch i s.latch)).pending, x ∈ xs) {m : Memory} {es : List Event}
    (hbytes : ∀ x ∈ xs, m.read x.addr = s.mem.read x.addr) :
    ∃ t', exec i { s.tick with env := es, mem := m } = .next t' ∧ SameResult xs t t' := by
  obtain ⟨ha, rfl⟩ := (exec_next_iff i s t).1 h
  refine ⟨_, (exec_next_iff _ _ _).2 ⟨ha, rfl⟩, ?_, ?_, fun x hx => ?_⟩
  · simp only [endBusy_phase]
    rfl
  · simp only [endBusy_status]
    rfl
  · simp only [endBusy_mem]
    refine (performAll_agree s.config _ _ m s.mem fun a hread => ?_).2 x.addr (.inr (hbytes x hx))
    obtain ⟨y, hy, _, rfl⟩ := mem_readSet.1 hread
    exact hbytes y (hsub y hy)

/-- From any point of a command whose remaining accesses are among `xs`: engine steps, one more than accesses are left,
with writes of others that keep off `xs` between them in any order, end as the command alone does. -/
theorem run_handsOff {xs : List Access} {s t u : State} (acts : List Event) (hb : s.phase = .busy)
    (hr : s.resetPin = false) (h : exec s.command s = .next t)
    (hsub : ∀ x ∈ (s.current (launch s.command s.latch)).pending, x ∈ xs) (he : s.env = acts)
    (hacts : ∀ e ∈ acts, e = .engine ∨ HandsOffWrite xs e)
    (hcount : acts.count .engine = (s.current (launch s.command s.latch)).pending.length + 1)
    (hrun : core.run acts.length s = .next u) : SameResult xs t u := by
  induction acts generalizing s t with
  | nil => simp at hcount
  | cons e es ih =>
    rw [List.forall_mem_cons] at hacts
    obtain ⟨rfl | hoff, hes⟩ := hacts
    · rw [List.count_cons_self, Nat.add_right_cancel_iff] at hcount
      cases hx : (s.current (launch s.command s.latch)).pending with
      | nil =>
        rw [hx] at hcount
        rw [List.length_cons, run_next _ (step_engine_finish hb hr h he hx)] at hrun
        have hrest : ∀ e ∈ es, HandsOffWrite xs e := fun e hm =>
          (hes e hm).resolve_left fun hengine => List.count_eq_zero.1 hcount (hengine ▸ hm)
        exact (SameResult.of_carried t es _).trans (run_handsOffWrites es rfl hrest hrun)
      | cons x ys =>
        obtain ⟨v, hv, hvb, hvr, hve, _, hvx, hvexec⟩ := step_engine_access hb hr h he hx
        rw [List.length_cons, run_next _ hv] at hrun
        have hsub' : ∀ y ∈ ys, y ∈ xs := fun y hy => hsub y (hx ▸ List.mem_cons_of_mem x hy)
        exact (SameResult.of_carried t es _).trans
          (ih hvb hvr hvexec (hvx ▸ hsub') hve hes (by rw [hvx, hcount, hx, List.length_cons]) hrun)
    · obtain ⟨v, hv, hrun⟩ := run_succ hrun
      have hcount' : es.count .engine = (s.current (launch s.command s.latch)).pending.length + 1 := by
        obtain ⟨who, a, d, rfl, _⟩ := hoff
        rwa [List.count_cons_of_ne (by exact nofun)] at hcount
      obtain ⟨m, rfl, hbytes⟩ := step_handsOffWrite hoff he hv
      obtain ⟨t', hexec, hsame⟩ := exec_sameResult h hsub hbytes
      exact hsame.trans (ih (s := { s.tick with env := es, mem := m }) hb hr hexec hsub rfl hes hcount' hrun)

/-- Settles O53. -/
theorem handsOffRunEqualsRunAlone : Obligations.HandsOffRunEqualsRunAlone := by
  intro s t u hb hr hp hacts hcount h hrun
  have hpending : (s.current (launch s.command s.latch)).pending = (launch s.command s.latch).accesses := by
    rw [current_started _ hp, Launch.begin]
  obtain ⟨hphase, hstatus, hbytes⟩ :=
    run_handsOff s.env hb hr h (fun x hx => hpending ▸ hx) rfl hacts (by rw [hpending, hcount]) hrun
  refine ⟨hphase, hstatus, fun a ha => ?_⟩
  obtain ⟨x, hx, _, rfl⟩ := mem_writeSet.1 ha
  exact hbytes x hx

end Sys2Proof.Proofs

/-! ## Encoding -/

namespace Sys2Proof.Proofs

open Sys2Proof.Machine Sys2Proof.Safety Sys2Proof.Laws

/-- Settles O1. -/
theorem decodesWrittenOutWords : Obligations.DecodesWrittenOutWords := by
  unfold Obligations.DecodesWrittenOutWords
  decide

/-- Settles O2: every term of `Instr` is well-formed. -/
theorem decodeUndoesEncode : Obligations.DecodeUndoesEncode :=
  ⟨fun i _ => decode_encode i, decode_word⟩

/-! ### The fields OP and FMT as masked words -/

/-- Mask 0x0F leaves OP. -/
theorem toNat_and_opMask (w : Word) : (w &&& 0x0F).toNat = (cmdOp w).toNat := by
  rw [BitVec.toNat_and, cmdOp, BitVec.extractLsb'_toNat, Nat.shiftRight_zero]
  exact Nat.and_two_pow_sub_one_eq_mod _ 4

/-- Mask 0x7F leaves FMT and OP. -/
theorem toNat_and_opFmtMask (w : Word) : (w &&& 0x7F).toNat = 16 * (cmdFmt w).toNat + (cmdOp w).toNat := by
  have hmask : (w &&& 0x7F).toNat = w.toNat % 128 := Nat.and_two_pow_sub_one_eq_mod _ 7
  rw [hmask, cmdFmt, cmdOp, BitVec.extractLsb'_toNat, BitVec.extractLsb'_toNat, Nat.shiftRight_zero,
    Nat.shiftRight_eq_div_pow]
  omega

/-- A mask that covers OP keeps it. -/
theorem cmdOp_and (w : Word) {m : Word} (hm : cmdOp m = 15) : cmdOp (w &&& m) = cmdOp w := by
  rw [cmdOp] at hm
  rw [cmdOp, BitVec.extractLsb'_and, hm]
  exact BitVec.and_allOnes

/-- A mask that covers ORDER keeps it. -/
theorem cmdOrder_and (w : Word) {m : Word} (hm : cmdOrder m = true) : cmdOrder (w &&& m) = cmdOrder w := by
  rw [cmdOrder] at hm
  rw [cmdOrder, BitVec.getLsbD_and, hm, Bool.and_true, cmdOrder]

/-! ### Rows of the opcode table -/

/-- The row the fields of a word select: FMT counts when OP = 0, OP alone otherwise (30 R92). -/
def fieldsRow (op : BitVec 4) (fmt : BitVec 3) : OpcodeRow :=
  if op = 0 then ⟨BitVec.ofNat 32 (16 * fmt.toNat), 0x7F⟩ else ⟨BitVec.ofNat 32 op.toNat, 0x0F⟩

theorem opcodeRow_decodeConvert (fmt : BitVec 3) (order share err : Bool) :
    opcodeRow (decodeConvert fmt order share err) = fieldsRow 0 fmt := by
  decide +revert

theorem opcodeRow_decode (w : Word) : opcodeRow (decode w) = fieldsRow (cmdOp w) (cmdFmt w) := by
  rw [decode]
  obtain ⟨⟨op, hop⟩⟩ := cmdOp w
  interval_cases op
  · exact opcodeRow_decodeConvert _ _ _ _
  all_goals rfl

/-- A row is selected exactly by the words with its OP and, when that is 0, its FMT. -/
theorem fieldsRow_selects_iff (op : BitVec 4) (fmt : BitVec 3) (w : Word) :
    (fieldsRow op fmt).selects w = true ↔ cmdOp w = op ∧ (op = 0 → cmdFmt w = fmt) := by
  rw [fieldsRow, OpcodeRow.selects]
  split_ifs with h0
  · have hrow : (BitVec.ofNat 32 (16 * fmt.toNat)).toNat = 16 * fmt.toNat :=
      (BitVec.toNat_ofNat _ _).trans (Nat.mod_eq_of_lt (by omega))
    have hop : cmdOp w = 0 ↔ (cmdOp w).toNat = 0 := BitVec.toNat_inj.symm
    have hfmt : cmdFmt w = fmt ↔ (cmdFmt w).toNat = fmt.toNat := BitVec.toNat_inj.symm
    rw [beq_iff_eq, ← BitVec.toNat_inj, toNat_and_opFmtMask, hrow, h0, hop, hfmt, eq_self, true_imp_iff]
    omega
  · have hrow : (BitVec.ofNat 32 op.toNat).toNat = op.toNat :=
      (BitVec.toNat_ofNat _ _).trans (Nat.mod_eq_of_lt (by omega))
    rw [beq_iff_eq, ← BitVec.toNat_inj, toNat_and_opMask, hrow, BitVec.toNat_inj]
    exact (and_iff_left fun h => absurd h h0).symm

/-- Settles O3: the row of a command is the row of its own encoding's fields. -/
theorem everyWordSelectsOneRow : Obligations.EveryWordSelectsOneRow := by
  intro w
  rw [opcodeRow_decode]
  refine ⟨(fieldsRow_selects_iff _ _ w).2 ⟨rfl, fun _ => rfl⟩, fun i hi => ?_⟩
  rw [← decode_encode i, opcodeRow_decode] at hi ⊢
  obtain ⟨hop, hfmt⟩ := (fieldsRow_selects_iff _ _ w).1 hi
  rw [hop, fieldsRow, fieldsRow]
  split_ifs with h0
  · rw [hfmt h0]
  · rfl

/-! ### Ignored bits -/

/-- Outside CONVERT, OP alone decides, and ORDER for DEINT, RGB565 and RGB8888 (30 R99 c). -/
theorem decode_congr {v w : Word} (hop : cmdOp v = cmdOp w) (h0 : (cmdOp w).toNat ≠ 0)
    (horder : (cmdOp w).toNat ∈ [2, 4, 5] → cmdOrder v = cmdOrder w) : decode v = decode w := by
  rw [decode, decode, hop]
  have hlt := (cmdOp w).isLt
  generalize (cmdOp w).toNat = op at *
  interval_cases op
  · exact absurd rfl h0
  · rfl
  · exact congrArg Instr.deint (horder (by decide))
  · rfl
  · exact congrArg Instr.rgb565 (horder (by decide))
  · exact congrArg Instr.rgb8888 (horder (by decide))
  all_goals rfl

/-- Settles O4: the masks keep OP, and ORDER where a command reads it. -/
theorem ignoredBitsDoNotChangeDecode : Obligations.IgnoredBitsDoNotChangeDecode := by
  refine ⟨decode_cmdStored, fun w h => ?_, fun w h => ?_⟩
  · have hop : (cmdOp w).toNat = 1 ∨ (cmdOp w).toNat = 3 ∨ 6 ≤ (cmdOp w).toNat := by
      simp only [← BitVec.toNat_inj, BitVec.le_def, toNat_and_opMask] at h
      exact h
    exact decode_congr (cmdOp_and w (by decide)) (by omega) fun h245 => by
      simp only [List.mem_cons, List.not_mem_nil, or_false] at h245
      omega
  · have hop : (cmdOp w).toNat = 2 ∨ (cmdOp w).toNat = 4 ∨ (cmdOp w).toNat = 5 := by
      simp only [← BitVec.toNat_inj, toNat_and_opMask] at h
      exact h
    exact decode_congr (cmdOp_and w (by decide)) (by omega) fun _ => cmdOrder_and w (by decide)

/-! ### Registers a command does not list -/

/-- A conversion's tests and overlay flag read HEIGHT, START_ROW and ROW_COUNT alone; the rest is in its accesses. -/
theorem launchConvert_congr {fmt : Format} {order share : Bool} {l l' : Regs} (err : Bool)
    (hh : l.height = l'.height) (hs : l.startRow = l'.startRow) (hn : l.rowCount = l'.rowCount)
    (ha : convertAccesses fmt order share l = convertAccesses fmt order share l') :
    launchConvert fmt order share err l = launchConvert fmt order share err l' := by
  have hodd : l.oddStart = l'.oddStart := by rw [Regs.oddStart, hs, Regs.oddStart]
  have hlast : l.lastBand = l'.lastBand :=
    decide_eq_decide.2 (by simp only [Regs.h, Regs.s, Regs.n, hh, hs, hn])
  rw [launchConvert, launchConvert, hodd, hlast, ha]

theorem lumaCopy_congr {share : Bool} {l l' : Regs} (hw : l.width = l'.width) (hs : l.startRow = l'.startRow)
    (hn : l.rowCount = l'.rowCount) (hl : share = false → l.srcY = l'.srcY ∧ l.dst0 = l'.dst0) :
    lumaCopy share l = lumaCopy share l' := by
  cases share with
  | true => rfl
  | false =>
    obtain ⟨hy, h0⟩ := hl rfl
    simp only [lumaCopy, Regs.windowY, Regs.window0, Regs.w, Regs.s, Regs.n, hw, hs, hn, hy, h0]

/-- Settles O30: a launch is made of its planes, its sizes and its window, and each of these is listed. -/
theorem unlistedRegistersDoNotMatter : Obligations.UnlistedRegistersDoNotMatter := by
  intro order share err l l' hw hh
  refine ⟨fun hy h0 => ?pcopy, fun hc h1 => ?swap, fun hc h1 h2 => ?deint, fun hy hc h0 => ?rgb,
    fun hs hn hc => ⟨fun hl h1 => ?planes, fun hy h0 => ?packed⟩⟩
  case pcopy => simp only [launch, launchPcopy, Regs.w, Regs.h, hw, hh, hy, h0]
  case swap => simp only [launch, launchSwap, Regs.w, Regs.h, hw, hh, hc, h1]
  case deint => simp only [launch, launchDeint, Regs.w, Regs.h, hw, hh, hc, h1, h2]
  case rgb => simp only [launch, launchRgb565, launchRgb8888, Regs.w, Regs.h, hw, hh, hy, hc, h0, and_self]
  case planes =>
    have hluma : lumaCopy share l = lumaCopy share l' := lumaCopy_congr hw hs hn hl
    have hsemi (isNative : Bool) : convertSemiPlanar isNative share l = convertSemiPlanar isNative share l' := by
      simp only [convertSemiPlanar, Regs.windowC, Regs.window1, Regs.cs, Regs.w, Regs.s, Regs.n,
        hluma, hw, hs, hn, hc, h1]
    have hplanar (h2 : l.dst2 = l'.dst2) : convertPlanar order share l = convertPlanar order share l' := by
      simp only [convertPlanar, Regs.windowC, Regs.window1, Regs.window2, Regs.cs, Regs.w, Regs.s, Regs.n,
        hluma, hw, hs, hn, hc, h1, h2]
    exact ⟨launchConvert_congr err hh hs hn (hsemi _), launchConvert_congr err hh hs hn (hsemi _),
      fun h2 => launchConvert_congr err hh hs hn (hplanar h2)⟩
  case packed =>
    have hpacked (kind : PixelKind) : convertPacked kind order l = convertPacked kind order l' := by
      simp only [convertPacked, Regs.windowY, Regs.windowC, Regs.window0, Regs.cs, Regs.w, Regs.s, Regs.n,
        hw, hs, hn, hy, hc, h0]
    exact ⟨launchConvert_congr err hh hs hn (hpacked _), launchConvert_congr err hh hs hn (hpacked _)⟩

end Sys2Proof.Proofs

/-! ## PlaneCopy -/

namespace Sys2Proof.Proofs

open Sys2Proof.Machine Sys2Proof.Safety Sys2Proof.Laws

/-- The address of an element, as a number (20 R62). -/
theorem toNat_at (p : Plane) (r c : Nat) :
    (p.at r c).toNat = (p.base.toNat + r * p.stride.toNat + c) % 2 ^ 32 := by
  simp only [Plane.at, BitVec.toNat_add, BitVec.toNat_mul, BitVec.toNat_ofNat, Nat.mod_mul_mod, Nat.add_mod_mod,
    Nat.mod_add_mod]

/-! ### Leaf commands, whatever their accesses -/

theorem statusFinished_ok_eq : statusFinished .ok = 0x12 := by decide

/-- A started leaf command on plain memory ends in IDLE with STATUS 0x12 and the memory its accesses make. -/
theorem exec_leaf {i : Instr} {s : State} {xs : List Access} (hl : launch i s.latch = Launch.leaf xs)
    (hp : Started s) (hb : BuffersOwned i s) :
    exec i s = .next (endsIdle s (performAll s.config xs (Work.start, s.mem)).2 0x12) := by
  rw [exec_started hp hb, hl, endsIdle, ← statusFinished_ok_eq]
  rfl

/-- On disjoint bytes, what round `(r, c)` of a grid command writes is what that round alone writes on the memory
before the command, whatever the working bytes are. -/
theorem exec_grid_read {i : Instr} {s t : State} {rows cols : Nat} {f : Nat → Nat → List Access}
    (ha : (launch i s.latch).accesses = grid rows cols f) (hp : Started s) (hd : Disjoint (launch i s.latch).accesses)
    (h : exec i s = .next t) {r c : Nat} (hr : r < rows) (hc : c < cols) {a : Addr} (hw : a ∈ writeSet (f r c)) :
    ∃ w, t.mem.read a = (performAll s.config (f r c) (w, s.mem)).2.read a := by
  obtain ⟨before, rest, hsplit⟩ := grid_split f hr hc
  rw [ha, hsplit] at hd
  rw [exec_started_mem hp h, ha, hsplit]
  exact disjoint_part s.config hd Work.start s.mem hw

/-! ### PCOPY -/

/-- PCOPY reads the source bytes, row by row (40 R122). -/
theorem readSet_planeCopy (src dst : Plane) (w h : Nat) :
    readSet (planeCopy src dst w h) = addrGrid h w fun r c => [src.at r c] :=
  readSet_grid h w (copyByte src dst)

/-- PCOPY writes the destination bytes, row by row (40 R122). -/
theorem writeSet_planeCopy (src dst : Plane) (w h : Nat) :
    writeSet (planeCopy src dst w h) = addrGrid h w fun r c => [dst.at r c] :=
  writeSet_grid h w (copyByte src dst)

/-- One round of PlaneCopy moves its source byte, whatever the working bytes are. -/
theorem performAll_copyByte (cfg : Config) (src dst : Plane) (r c : Nat) (w : Work) (m : Memory) :
    (performAll cfg (copyByte src dst r c) (w, m)).2 = m.write (dst.at r c) (m.read (src.at r c)) := rfl

/-- Settles O17: the accesses of PCOPY are PlaneCopy's, byte after byte. -/
theorem pcopyRunsPlaneCopy : Obligations.PcopyRunsPlaneCopy := by
  refine ⟨fun p n r c => ⟨toNat_at p r c, ?_⟩, fun l => ⟨rfl, rfl, rfl, rfl, rfl, rfl, rfl, rfl, rfl⟩,
    fun s hp hb => ⟨?_, readSet_planeCopy _ _ _ _, writeSet_planeCopy _ _ _ _⟩⟩
  · rw [advance_at, toNat_at]
  · rw [exec_leaf (xs := planeCopy s.latch.srcY s.latch.dst0 s.latch.w s.latch.h) rfl hp hb, planeCopy_runs]

/-- Settles O35: on disjoint bytes a round's source byte is still the old one, and no later round writes where it wrote. -/
theorem pcopyOnDisjointPlanesCopies : Obligations.PcopyOnDisjointPlanesCopies := by
  intro s t hp hd h r c hr hc
  obtain ⟨w, hread⟩ := exec_grid_read (f := copyByte s.latch.srcY s.latch.dst0) rfl hp hd h hr hc
    (a := s.latch.dst0.at r c) (List.mem_singleton_self _)
  rw [hread, performAll_copyByte, read_write_same]

end Sys2Proof.Proofs

/-! ## Deinterleave -/

namespace Sys2Proof.Proofs

open Sys2Proof.Machine Sys2Proof.Safety Sys2Proof.Laws

/-- DEINT makes one round of Deinterleave for each pair (41 R132, R133). -/
theorem launch_deint_accesses (order : Bool) (l : Regs) :
    (launch (.deint order) l).accesses =
      grid (l.h / 2) (l.w / 2) (splitPair l.srcC l.dst1 l.dst2 order) := rfl

@[simp] theorem writeSet_splitPair (src dA dB : Plane) (order : Bool) (i j : Nat) :
    writeSet (splitPair src dA dB order i j) = [dA.at i j, dB.at i j] := rfl

/-- DEINT reads the pairs of the chroma plane, in each pair component A's byte first (41 R131, R133). -/
theorem readSet_deinterleave (src dA dB : Plane) (w h : Nat) (order : Bool) :
    readSet (deinterleave src dA dB w h order) =
      addrGrid (h / 2) (w / 2) fun i j => [src.at i (2 * j + posA order), src.at i (2 * j + posB order)] :=
  readSet_grid (h / 2) (w / 2) (splitPair src dA dB order)

/-- DEINT writes one byte to each output plane for each pair (41 R133). -/
theorem writeSet_deinterleave (src dA dB : Plane) (w h : Nat) (order : Bool) :
    writeSet (deinterleave src dA dB w h order) = addrGrid (h / 2) (w / 2) fun i j => [dA.at i j, dB.at i j] :=
  writeSet_grid (h / 2) (w / 2) (splitPair src dA dB order)

theorem posB_eq (order : Bool) : posB order = if order then 0 else 1 := by cases order <;> rfl

/-- Settles O18: the accesses of DEINT are Deinterleave's, pair after pair. -/
theorem deintRunsDeinterleave : Obligations.DeintRunsDeinterleave := by
  intro order s hp hb
  refine ⟨?_, ?_, writeSet_deinterleave _ _ _ _ _ _⟩
  · rw [exec_leaf (xs := deinterleave s.latch.srcC s.latch.dst1 s.latch.dst2 s.latch.w s.latch.h order) rfl hp hb,
      deinterleave_runs]
  · simp only [← posB_eq]
    exact readSet_deinterleave _ _ _ _ _ _

/-- A round of a grid on disjoint bytes writes none of its own bytes twice. -/
theorem nodup_writeSet_round {rows cols : Nat} {f : Nat → Nat → List Access} (hd : Disjoint (grid rows cols f))
    {r c : Nat} (hr : r < rows) (hc : c < cols) : (writeSet (f r c)).Nodup := by
  obtain ⟨before, rest, hsplit⟩ := grid_split f hr hc
  obtain ⟨_, hnodup⟩ := hd
  rw [hsplit, writeSet_append, writeSet_append] at hnodup
  exact hnodup.of_append_left.of_append_right

/-- One round of Deinterleave, its two output bytes apart, moves component A's byte to plane A and component B's to
plane B, whatever the working bytes are. -/
theorem read_performAll_splitPair (cfg : Config) {src dA dB : Plane} (order : Bool) {i j : Nat} (w : Work) (m : Memory)
    (h : dA.at i j ≠ dB.at i j) :
    (performAll cfg (splitPair src dA dB order i j) (w, m)).2.read (dA.at i j) =
        m.read (src.at i (2 * j + posA order)) ∧
      (performAll cfg (splitPair src dA dB order i j) (w, m)).2.read (dB.at i j) =
        m.read (src.at i (2 * j + posB order)) := by
  have hround : (performAll cfg (splitPair src dA dB order i j) (w, m)).2 =
      (m.write (dA.at i j) (m.read (src.at i (2 * j + posA order)))).write (dB.at i j)
        (m.read (src.at i (2 * j + posB order))) := rfl
  rw [hround]
  exact ⟨by rw [read_write_ne _ _ h, read_write_same], read_write_same _ _ _⟩

/-- On disjoint bytes DEINT leaves at (i, j) of plane A and plane B the bytes of components A and B of source pair
(i, j), as they were before the command. -/
theorem exec_deint_read {order : Bool} {s t : State} (hp : Started s)
    (hd : Disjoint (launch (.deint order) s.latch).accesses) (h : exec (.deint order) s = .next t) {i j : Nat}
    (hi : i < s.latch.h / 2) (hj : j < s.latch.w / 2) :
    t.mem.read (s.latch.dst1.at i j) = s.mem.read (s.latch.srcC.at i (2 * j + posA order)) ∧
      t.mem.read (s.latch.dst2.at i j) = s.mem.read (s.latch.srcC.at i (2 * j + posB order)) := by
  have ha := launch_deint_accesses order s.latch
  have hne : s.latch.dst1.at i j ≠ s.latch.dst2.at i j := by
    have hnodup := nodup_writeSet_round (ha ▸ hd) hi hj
    simpa using hnodup
  obtain ⟨w, hA⟩ := exec_grid_read ha hp hd h hi hj (a := s.latch.dst1.at i j) (by simp)
  obtain ⟨w', hB⟩ := exec_grid_read ha hp hd h hi hj (a := s.latch.dst2.at i j) (by simp)
  exact ⟨hA.trans (read_performAll_splitPair s.config order w s.mem hne).1,
    hB.trans (read_performAll_splitPair s.config order w' s.mem hne).2⟩

/-- Settles O36: plane A holds the even byte of each pair when A comes first, the odd byte when B comes first. -/
theorem deintOutputsRecoverTheSource : Obligations.DeintOutputsRecoverTheSource := by
  intro order s t hp hd h i j hi hj
  obtain ⟨hA, hB⟩ := exec_deint_read hp hd h hi hj
  cases order with
  | false => exact ⟨hA.symm, hB.symm⟩
  | true => exact ⟨hB.symm, hA.symm⟩

end Sys2Proof.Proofs

/-! ## SwapPairs -/

namespace Sys2Proof.Proofs

open Sys2Proof.Machine Sys2Proof.Safety Sys2Proof.Laws

/-- SWAP makes SwapPairs from SRC_C to DST1 (42 R142). -/
theorem launch_swap_accesses (l : Regs) :
    (launch .swap l).accesses = swapPairs l.srcC l.dst1 l.w l.h := rfl

/-- SWAP reads both bytes of each pair (42 R141). -/
theorem readSet_swapPairs (src dst : Plane) (w h : Nat) :
    readSet (swapPairs src dst w h) =
      addrGrid (h / 2) (w / 2) fun i j => [src.at i (2 * j), src.at i (2 * j + 1)] :=
  readSet_grid (h / 2) (w / 2) (swapPair src dst)

/-- SWAP writes both bytes of each pair (42 R141). -/
theorem writeSet_swapPairs (src dst : Plane) (w h : Nat) :
    writeSet (swapPairs src dst w h) =
      addrGrid (h / 2) (w / 2) fun i j => [dst.at i (2 * j), dst.at i (2 * j + 1)] :=
  writeSet_grid (h / 2) (w / 2) (swapPair src dst)

/-- Settles O19: the accesses of SWAP are SwapPairs', pair after pair. -/
theorem swapRunsSwapPairs : Obligations.SwapRunsSwapPairs := by
  refine fun s hp hb => ⟨?_, readSet_swapPairs _ _ _ _, writeSet_swapPairs _ _ _ _⟩
  rw [exec_leaf (xs := swapPairs s.latch.srcC s.latch.dst1 s.latch.w s.latch.h) rfl hp hb, swapPairs_runs]

/-! ### In place -/

/-- When no byte is written twice, an inner part that reads only bytes it writes itself runs as it would alone on the
memory the whole sequence started from, and what it writes stays. -/
theorem inPlace_part (cfg : Config) {before part rest : List Access}
    (hnd : (writeSet (before ++ part ++ rest)).Nodup) (hin : readSet part ⊆ writeSet part) (w : Work) (m : Memory)
    {a : Addr} (ha : a ∈ writeSet part) :
    ∃ w', (performAll cfg (before ++ part ++ rest) (w, m)).2.read a = (performAll cfg part (w', m)).2.read a := by
  rw [writeSet_append, writeSet_append] at hnd
  have hrest : a ∉ writeSet rest := hnd.disjoint (List.mem_append_right _ ha)
  have hbefore : ∀ b ∈ readSet part, b ∉ writeSet before := fun b hb hw =>
    hnd.of_append_left.disjoint hw (hin hb)
  refine ⟨(performAll cfg before (w, m)).1, ?_⟩
  rw [performAll_append, performAll_append, performAll_read_of_not_mem _ _ hrest]
  exact (performAll_agree cfg part _ _ m fun b hb =>
    performAll_read_of_not_mem cfg (w, m) (hbefore b hb)).2 a (.inl ha)

/-- One pair swapped in place: every address reads what its image under the exchange of the pair's two addresses read
before, whatever the working bytes are. -/
theorem read_performAll_swapPair_inPlace (cfg : Config) (p : Plane) (i j : Nat) (w : Work) (m : Memory) (a : Addr) :
    (performAll cfg (swapPair p p i j) (w, m)).2.read a =
      m.read (Equiv.swap (p.at i (2 * j)) (p.at i (2 * j + 1)) a) := by
  have hround : (performAll cfg (swapPair p p i j) (w, m)).2 =
      (m.write (p.at i (2 * j)) (m.read (p.at i (2 * j + 1)))).write (p.at i (2 * j + 1))
        (m.read (p.at i (2 * j))) := rfl
  rw [hround, read_write, read_write, Equiv.swap_apply_def]
  split_ifs with hodd heven
  · rw [← heven, hodd]
  · rfl
  · rfl
  · rfl

theorem mem_writeSet_swapPair {src dst : Plane} {i j : Nat} {a : Addr} :
    a ∈ writeSet (swapPair src dst i j) ↔ a = dst.at i (2 * j) ∨ a = dst.at i (2 * j + 1) := by
  rw [show writeSet (swapPair src dst i j) = [dst.at i (2 * j), dst.at i (2 * j + 1)] from rfl]
  simp

/-- The exchange of a pair's addresses stays in the pair. -/
theorem swap_mem_writeSet_swapPair {src dst : Plane} {i j : Nat} {a : Addr}
    (ha : a ∈ writeSet (swapPair src dst i j)) :
    Equiv.swap (dst.at i (2 * j)) (dst.at i (2 * j + 1)) a ∈ writeSet (swapPair src dst i j) := by
  rw [mem_writeSet_swapPair] at ha ⊢
  rcases ha with rfl | rfl
  · exact .inr (Equiv.swap_apply_left _ _)
  · exact .inl (Equiv.swap_apply_right _ _)

/-- A plane swapped in place, no byte written twice: each byte of a pair reads what the other one read. -/
theorem read_performAll_swapPairs_inPlace (cfg : Config) {p : Plane} {w h : Nat}
    (hnd : (writeSet (swapPairs p p w h)).Nodup) {i j : Nat} (hi : i < h / 2) (hj : j < w / 2) (k : Work) (m : Memory)
    {a : Addr} (ha : a ∈ writeSet (swapPair p p i j)) :
    (performAll cfg (swapPairs p p w h) (k, m)).2.read a =
      m.read (Equiv.swap (p.at i (2 * j)) (p.at i (2 * j + 1)) a) := by
  obtain ⟨before, rest, hsplit⟩ := grid_split (swapPair p p) hi hj
  rw [swapPairs, hsplit] at hnd ⊢
  obtain ⟨k', hread⟩ := inPlace_part cfg hnd (List.Subset.refl _) k m ha
  rw [hread, read_performAll_swapPair_inPlace]

/-- A plane swapped in place twice, no byte written twice by one run, is as it was, and so is the rest of memory. -/
theorem read_performAll_swapPairs_inPlace_twice (cfg : Config) {p : Plane} {w h : Nat}
    (hnd : (writeSet (swapPairs p p w h)).Nodup) (k k' : Work) (m : Memory) (a : Addr) :
    (performAll cfg (swapPairs p p w h) (k', (performAll cfg (swapPairs p p w h) (k, m)).2)).2.read a = m.read a := by
  by_cases ha : a ∈ writeSet (swapPairs p p w h)
  · obtain ⟨i, hi, j, hj, hpair⟩ := mem_addrGrid.1 (writeSet_grid _ _ (swapPair p p) ▸ ha)
    rw [read_performAll_swapPairs_inPlace cfg hnd hi hj _ _ hpair,
      read_performAll_swapPairs_inPlace cfg hnd hi hj _ _ (swap_mem_writeSet_swapPair hpair), Equiv.swap_apply_self]
  · rw [performAll_read_of_not_mem _ _ ha, performAll_read_of_not_mem _ _ ha]

/-- Settles O37: the second run has the first one's latch, and exchanging a pair twice is the identity. -/
theorem swapInPlaceTwiceRestores : Obligations.SwapInPlaceTwiceRestores := by
  intro s t u hp hsame hnd h h' a
  obtain ⟨_, hlatch, hconfig, _, _, _, _, _, hp', _⟩ := commandFrame .swap s t h
  rw [launch_swap_accesses, hsame] at hnd
  rw [exec_started_mem hp' h', hlatch, hconfig, exec_started_mem hp h, launch_swap_accesses, hsame]
  exact read_performAll_swapPairs_inPlace_twice s.config hnd _ _ s.mem a

end Sys2Proof.Proofs

/-! ## Colour arithmetic -/

namespace Sys2Proof.Proofs

open Sys2Proof.Machine Sys2Proof.Safety Sys2Proof.Laws

/-! ### The deltas -/

/-- The shift by 13 is the floor of the quotient by 8192, below zero too (43 R153 b). -/
theorem asr_isFloor (x : Int) : 8192 * asr x 13 ≤ x ∧ x < 8192 * asr x 13 + 8192 := by
  unfold asr
  omega

/-- Settles O42: each delta is one shift by 13, of its product or of the sum of its two products. -/
theorem deltasAreFloorsOfTheProducts : Obligations.DeltasAreFloorsOfTheProducts :=
  fun _ _ _ => ⟨asr_isFloor _, asr_isFloor _, asr_isFloor _⟩

theorem abs_centred_le (c : Byte) : |centred c| ≤ 128 := by
  have hc : c.toNat < 256 := c.isLt
  rw [abs_le, centred]
  omega

theorem abs_toInt_coeff_le (k : BitVec 16) : |k.toInt| ≤ 32768 := by
  have hlow := BitVec.le_toInt k
  have hhigh := BitVec.toInt_lt (x := k)
  rw [abs_le]
  omega

/-- A centred chroma byte times a coefficient (43 R153 d). -/
theorem abs_centred_mul_coeff_le (c : Byte) (k : BitVec 16) : |centred c * k.toInt| ≤ 128 * 32768 := by
  rw [abs_mul]
  exact mul_le_mul (abs_centred_le c) (abs_toInt_coeff_le k) (abs_nonneg _) (by decide)

/-- A value no larger than two such products is at most 1024 in size after the shift (43 R153 d). -/
theorem asr_within_1024 {x : Int} (h : |x| ≤ 128 * 32768 + 128 * 32768) : -1024 ≤ asr x 13 ∧ asr x 13 ≤ 1024 := by
  have hfloor := asr_isFloor x
  rw [abs_le] at h
  omega

/-- Settles O43: one product is at most 2^22 in size, two at most 2^23, and 2^23 / 8192 = 1024. -/
theorem deltasLieWithin1024 : Obligations.DeltasLieWithin1024 := by
  intro cfg cb cr d hd
  have hone (c : Byte) (k : BitVec 16) :
      -1024 ≤ asr (centred c * k.toInt) 13 ∧ asr (centred c * k.toInt) 13 ≤ 1024 :=
    asr_within_1024 ((abs_centred_mul_coeff_le c k).trans (by decide))
  simp only [List.mem_cons, List.not_mem_nil, or_false] at hd
  rcases hd with rfl | rfl | rfl
  · exact hone cr cfg.coeff1
  · exact asr_within_1024 ((abs_add_le _ _).trans
      (add_le_add (abs_centred_mul_coeff_le cb cfg.coeff2) (abs_centred_mul_coeff_le cr cfg.coeff3)))
  · exact hone cb cfg.coeff4

/-! ### The packed words -/

/-- Three fields of a word side by side, in numbers: the lowest `n` bits wide, the middle one `m` bits. -/
theorem or_fields_eq_add {b c m n : Nat} (a : Nat) (hb : b < 2 ^ m) (hc : c < 2 ^ n) :
    a <<< (m + n) ||| b <<< n ||| c = a * 2 ^ (m + n) + b * 2 ^ n + c := by
  rw [Nat.shiftLeft_add, ← Nat.shiftLeft_or_distrib, ← Nat.shiftLeft_add_eq_or_of_lt hc,
    ← Nat.shiftLeft_add_eq_or_of_lt hb]
  simp only [Nat.shiftLeft_eq]
  ring

/-- The RGB565 word: the low 3, 2 and 3 bits of the channels are dropped (43 R156). -/
theorem toNat_pack565 (r g b : Byte) :
    (pack565 r g b).toNat = r.toNat / 8 * 2 ^ 11 + g.toNat / 4 * 2 ^ 5 + b.toNat / 8 := by
  have hr : r.toNat < 256 := r.isLt
  have hg : g.toNat < 256 := g.isLt
  have hb : b.toNat < 256 := b.isLt
  have hfields : (pack565 r g b).toNat = (r.toNat / 8) <<< 11 ||| (g.toNat / 4) <<< 5 ||| b.toNat / 8 := by
    simp (disch := omega) only [pack565, BitVec.toNat_or, BitVec.toNat_shiftLeft, BitVec.toNat_setWidth,
      BitVec.toNat_ushiftRight, Nat.shiftRight_eq_div_pow, Nat.mod_eq_of_lt]
  rw [hfields]
  exact or_fields_eq_add (m := 6) (n := 5) _ (by omega) (by omega)

/-- The RGB8888 word: the three channels side by side (43 R157). -/
theorem toNat_pack8888 (r g b : Byte) :
    (pack8888 r g b).toNat = r.toNat * 2 ^ 16 + g.toNat * 2 ^ 8 + b.toNat := by
  have hr : r.toNat < 256 := r.isLt
  have hg : g.toNat < 256 := g.isLt
  have hb : b.toNat < 256 := b.isLt
  have hfields : (pack8888 r g b).toNat = r.toNat <<< 16 ||| g.toNat <<< 8 ||| b.toNat := by
    simp (disch := omega) only [pack8888, BitVec.toNat_or, BitVec.toNat_shiftLeft, BitVec.toNat_setWidth,
      Nat.mod_eq_of_lt]
  rw [hfields]
  exact or_fields_eq_add (m := 8) (n := 8) _ hg hb

/-- Settles O45: a pixel's 16-bit word is stored in 32 bits as it is. -/
theorem rgb565WordFields : Obligations.Rgb565WordFields := by
  refine ⟨toNat_pack565, fun cfg y cb cr => ?_⟩
  rw [← toNat_pack565]
  exact BitVec.toNat_setWidth_of_le (by decide)

/-! ### The bytes of an RGB8888 word -/

theorem toNat_byteOf (w : Word) (k : Nat) : (byteOf w k).toNat = w.toNat / 2 ^ (8 * k) % 2 ^ 8 := by
  rw [byteOf, BitVec.extractLsb'_toNat, Nat.shiftRight_eq_div_pow]

/-- Bytes 0 to 3 of an RGB8888 word are blue, green, red and zero. -/
theorem byteOf_pack8888 (r g b : Byte) :
    byteOf (pack8888 r g b) 0 = b ∧ byteOf (pack8888 r g b) 1 = g ∧ byteOf (pack8888 r g b) 2 = r ∧
      byteOf (pack8888 r g b) 3 = 0#8 := by
  have hr : r.toNat < 256 := r.isLt
  have hg : g.toNat < 256 := g.isLt
  have hb : b.toNat < 256 := b.isLt
  simp only [← BitVec.toNat_inj, toNat_byteOf, toNat_pack8888, BitVec.toNat_ofNat]
  omega

/-- Settles O46: the word is below 2^24, so nothing reaches byte 3. -/
theorem rgb8888WordFields : Obligations.Rgb8888WordFields := by
  refine ⟨toNat_pack8888, fun cfg y cb cr => ?_⟩
  obtain ⟨_, _, _, htop⟩ :=
    byteOf_pack8888 (channel y (deltaR cfg cr)) (channel y (deltaG cfg cb cr)) (channel y (deltaB cfg cb))
  exact htop

/-- The clip, in numbers (43 R154). -/
theorem toNat_clip8 (v : Int) : ((clip8 v).toNat : Int) = if v < 0 then 0 else if v > 255 then 255 else v := by
  rw [clip8, BitVec.toNat_ofNat]
  split_ifs <;> omega

/-- Settles O44: bytes 2, 1 and 0 of a pixel's word are its channels, and a channel is a clipped sum. -/
theorem channelsAreTheClippedSums : Obligations.ChannelsAreTheClippedSums := by
  intro cfg y cb cr
  obtain ⟨hblue, hgreen, hred, _⟩ :=
    byteOf_pack8888 (channel y (deltaR cfg cr)) (channel y (deltaG cfg cb cr)) (channel y (deltaB cfg cb))
  simp only [pixelWord, hblue, hgreen, hred]
  exact ⟨toNat_clip8 _, toNat_clip8 _, toNat_clip8 _⟩

end Sys2Proof.Proofs

/-! ## YuvToRgb -/

namespace Sys2Proof.Proofs

open Sys2Proof.Machine Sys2Proof.Safety Sys2Proof.Laws

/-! ### What YuvToRgb reads and writes -/

/-- A pixel reads its luma byte alone. -/
theorem readSet_convertPixel (kind : PixelKind) (y d : Plane) (row col : Nat) :
    readSet (convertPixel kind y d row col) = [y.at row col] := by
  cases kind <;> rfl

/-- A block reads its chroma pair, component A first, then its four luma bytes (43 R155, R158). -/
theorem readSet_convertBlock (kind : PixelKind) (y c d : Plane) (order : Bool) (i j : Nat) :
    readSet (convertBlock kind y c d order i j) =
      [c.at i (2 * j + posA order), c.at i (2 * j + posB order), y.at (2 * i) (2 * j), y.at (2 * i) (2 * j + 1),
        y.at (2 * i + 1) (2 * j), y.at (2 * i + 1) (2 * j + 1)] := by
  simp only [convertBlock, readSet_append, readSet_convertPixel]
  rfl

/-- The stores of two pixels side by side are one run of bytes, ascending (43 R159, R160). -/
theorem writeSet_convertPixel_pair (kind : PixelKind) (y d : Plane) (row j : Nat) :
    writeSet (convertPixel kind y d row (2 * j)) ++ writeSet (convertPixel kind y d row (2 * j + 1)) =
      (List.range (kind.bytes + kind.bytes)).map fun k => d.at row (2 * kind.bytes * j + k) := by
  have hleft : 2 * j * kind.bytes = 2 * kind.bytes * j := by ring
  have hright (k : Nat) : (2 * j + 1) * kind.bytes + k = 2 * kind.bytes * j + (kind.bytes + k) := by ring
  rw [List.range_add, List.map_append, List.map_map, writeSet_convertPixel, writeSet_convertPixel]
  simp only [hleft, hright, Function.comp_def]

/-- A block writes its bytes of the upper row, then those of the lower row. -/
theorem writeSet_convertBlock_rows (kind : PixelKind) (y c d : Plane) (order : Bool) (i j : Nat) :
    writeSet (convertBlock kind y c d order i j) =
      ((List.range (kind.bytes + kind.bytes)).map fun k => d.at (2 * i) (2 * kind.bytes * j + k)) ++
      (List.range (kind.bytes + kind.bytes)).map fun k => d.at (2 * i + 1) (2 * kind.bytes * j + k) := by
  rw [writeSet_convertBlock, List.append_assoc, writeSet_convertPixel_pair, writeSet_convertPixel_pair]

/-- YuvToRgb reads block by block. -/
theorem readSet_yuvToRgb (kind : PixelKind) (y c d : Plane) (w h : Nat) (order : Bool) :
    readSet (yuvToRgb kind y c d w h order) = addrGrid (h / 2) (w / 2) fun i j =>
      [c.at i (2 * j + if order then 1 else 0), c.at i (2 * j + if order then 0 else 1),
        y.at (2 * i) (2 * j), y.at (2 * i) (2 * j + 1), y.at (2 * i + 1) (2 * j), y.at (2 * i + 1) (2 * j + 1)] := by
  simp only [yuvToRgb, readSet_grid, readSet_convertBlock, posA, posB_eq]

/-- YuvToRgb writes block by block, in each block the upper row's bytes first. -/
theorem writeSet_yuvToRgb (kind : PixelKind) (y c d : Plane) (w h : Nat) (order : Bool) :
    writeSet (yuvToRgb kind y c d w h order) = addrGrid (h / 2) (w / 2) fun i j =>
      ((List.range (kind.bytes + kind.bytes)).map fun k => d.at (2 * i) (2 * kind.bytes * j + k)) ++
      (List.range (kind.bytes + kind.bytes)).map fun k => d.at (2 * i + 1) (2 * kind.bytes * j + k) := by
  simp only [yuvToRgb, writeSet_grid, writeSet_convertBlock_rows]

/-- A started leaf command that makes YuvToRgb, on plain memory. -/
theorem exec_yuvToRgb {i : Instr} {s : State} {kind : PixelKind} {y c d : Plane} {w h : Nat} {order : Bool}
    (hl : launch i s.latch = Launch.leaf (yuvToRgb kind y c d w h order)) (hp : Started s) (hb : BuffersOwned i s) :
    exec i s = .next (endsIdle s (convertPlane s.config kind y c d w h order s.mem) 0x12) := by
  rw [exec_leaf hl hp hb, yuvToRgb_runs]

/-- Settles O20: the accesses of RGB565 are YuvToRgb's, block after block, two bytes a pixel. -/
theorem rgb565RunsYuvToRgb : Obligations.Rgb565RunsYuvToRgb :=
  fun _ _ hp hb => ⟨exec_yuvToRgb rfl hp hb, writeSet_yuvToRgb .rgb565 _ _ _ _ _ _,
    readSet_yuvToRgb .rgb565 _ _ _ _ _ _⟩

/-- Settles O21: the accesses of RGB8888 are YuvToRgb's, block after block, four bytes a pixel. -/
theorem rgb8888RunsYuvToRgb : Obligations.Rgb8888RunsYuvToRgb :=
  fun _ _ hp hb => ⟨exec_yuvToRgb rfl hp hb, writeSet_yuvToRgb .rgb8888 _ _ _ _ _ _,
    readSet_yuvToRgb .rgb8888 _ _ _ _ _ _⟩

/-! ### One pixel on disjoint bytes -/

/-- A round of a grid on disjoint bytes is itself on disjoint bytes. -/
theorem disjoint_round {rows cols : Nat} {f : Nat → Nat → List Access} (hd : Disjoint (grid rows cols f)) {r c : Nat}
    (hr : r < rows) (hc : c < cols) : Disjoint (f r c) := by
  refine ⟨fun a hread hwrite => ?_, nodup_writeSet_round hd hr hc⟩
  obtain ⟨hrw, _⟩ := hd
  rw [readSet_grid, writeSet_grid] at hrw
  exact hrw a (mem_addrGrid.2 ⟨r, hr, c, hc, hread⟩) (mem_addrGrid.2 ⟨r, hr, c, hc, hwrite⟩)

/-- In a sequence on disjoint bytes, what an inner part writes is what that part writes on the memory the whole
sequence started from, with the working bytes left by what comes before it. -/
theorem disjoint_part_after (cfg : Config) {before part rest : List Access} (hd : Disjoint (before ++ part ++ rest))
    (w : Work) (m : Memory) {a : Addr} (ha : a ∈ writeSet part) :
    (performAll cfg (before ++ part ++ rest) (w, m)).2.read a =
      (performAll cfg part ((performAll cfg before (w, m)).1, m)).2.read a := by
  obtain ⟨hrw, hnd⟩ := hd
  simp only [readSet_append, writeSet_append] at hrw hnd
  have hrest : a ∉ writeSet rest := hnd.disjoint (List.mem_append_right _ ha)
  have hbefore : ∀ b ∈ readSet part, b ∉ writeSet before := fun b hr hw => hrw b (by simp [hr]) (by simp [hw])
  rw [performAll_append, performAll_append, performAll_read_of_not_mem _ _ hrest]
  exact (performAll_agree cfg part _ _ m fun b hb =>
    performAll_read_of_not_mem cfg (w, m) (hbefore b hb)).2 a (.inl ha)

/-- Accesses that read into the luma byte alone keep the chroma pair. -/
theorem performAll_keeps_chroma (cfg : Config) {xs : List Access} (h : ∀ a t, Access.read a t ∈ xs → t = .luma)
    (w : Work) (m : Memory) :
    (performAll cfg xs (w, m)).1.cb = w.cb ∧ (performAll cfg xs (w, m)).1.cr = w.cr := by
  induction xs generalizing w m with
  | nil => exact ⟨rfl, rfl⟩
  | cons x xs ih =>
    have hxs := ih fun a t hm => h a t (List.mem_cons_of_mem _ hm)
    cases x with
    | read a t =>
      obtain rfl := h a t List.mem_cons_self
      exact hxs { w with luma := m.read a } m
    | write a v => exact hxs w (m.write a (v.value cfg w))

/-- A block is its two chroma reads and a grid of two by two pixels (43 R155). -/
theorem convertBlock_eq_grid (kind : PixelKind) (y c d : Plane) (order : Bool) (i j : Nat) :
    convertBlock kind y c d order i j =
      [.read (c.at i (2 * j + posA order)) .cb, .read (c.at i (2 * j + posB order)) .cr] ++
        grid 2 2 fun dy dx => convertPixel kind y d (2 * i + dy) (2 * j + dx) := by
  simp [convertBlock, grid, List.range_succ]

/-- Pixels read into the luma byte alone. -/
theorem temp_of_read_mem_pixels {kind : PixelKind} {y d : Plane} {rows cols i j : Nat} {a : Addr} {t : Temp}
    (h : Access.read a t ∈ grid rows cols fun dy dx => convertPixel kind y d (i + dy) (j + dx)) : t = .luma := by
  simp only [grid, List.mem_flatMap] at h
  obtain ⟨dy, _, dx, _, hpixel⟩ := h
  have hread : a = y.at (i + dy) (j + dx) ∧ t = .luma := by simpa [convertPixel, storePixel] using hpixel
  exact hread.2

/-- A pixel writes each of its bytes. -/
theorem mem_writeSet_convertPixel {kind : PixelKind} {y d : Plane} {row col k : Nat} (hk : k < kind.bytes) :
    d.at row (col * kind.bytes + k) ∈ writeSet (convertPixel kind y d row col) := by
  rw [writeSet_convertPixel]
  exact List.mem_map_of_mem (List.mem_range.2 hk)

/-- Byte `k` of a stored pixel. -/
theorem read_performAll_convertPixel (cfg : Config) {kind : PixelKind} (y d : Plane) (row col : Nat) {k : Nat}
    (hk : k < kind.bytes) (w : Work) (m : Memory) :
    (performAll cfg (convertPixel kind y d row col) (w, m)).2.read (d.at row (col * kind.bytes + k)) =
      byteOf (pixelWord cfg kind (m.read (y.at row col)) w.cb w.cr) k := by
  rw [convertPixel_runs, ← at_add d]
  exact read_writeWord _ _ _ (by cases kind <;> decide) hk

/-- A block writes every byte of its pixels. -/
theorem mem_writeSet_convertBlock {kind : PixelKind} {y c d : Plane} {order : Bool} {i j dy dx k : Nat} (hy : dy < 2)
    (hx : dx < 2) (hk : k < kind.bytes) :
    d.at (2 * i + dy) ((2 * j + dx) * kind.bytes + k) ∈ writeSet (convertBlock kind y c d order i j) := by
  rw [convertBlock_eq_grid, writeSet_append, writeSet_grid]
  exact List.mem_append_right _ (mem_addrGrid.2 ⟨dy, hy, dx, hx, mem_writeSet_convertPixel hk⟩)

/-- A block on disjoint bytes stores for each of its pixels the word of the pixel's own luma byte and the block's chroma
pair, as they were before the block, whatever the working bytes are. -/
theorem read_performAll_convertBlock (cfg : Config) {kind : PixelKind} {y c d : Plane} {order : Bool} {i j : Nat}
    (hd : Disjoint (convertBlock kind y c d order i j)) (w : Work) (m : Memory) {dy dx k : Nat} (hy : dy < 2)
    (hx : dx < 2) (hk : k < kind.bytes) :
    (performAll cfg (convertBlock kind y c d order i j) (w, m)).2.read
        (d.at (2 * i + dy) ((2 * j + dx) * kind.bytes + k)) =
      byteOf (pixelWord cfg kind (m.read (y.at (2 * i + dy) (2 * j + dx))) (m.read (c.at i (2 * j + posA order)))
        (m.read (c.at i (2 * j + posB order)))) k := by
  obtain ⟨before, rest, hsplit⟩ := grid_split (fun dy dx => convertPixel kind y d (2 * i + dy) (2 * j + dx)) hy hx
  have hluma : ∀ a t, Access.read a t ∈ before → t = .luma := fun a t hm =>
    temp_of_read_mem_pixels (hsplit ▸ List.mem_append_left _ (List.mem_append_left _ hm))
  rw [convertBlock_eq_grid, hsplit, ← List.append_assoc, ← List.append_assoc] at hd ⊢
  obtain ⟨hcb, hcr⟩ := performAll_keeps_chroma cfg hluma
    { w with cb := m.read (c.at i (2 * j + posA order)), cr := m.read (c.at i (2 * j + posB order)) } m
  rw [disjoint_part_after cfg hd w m (mem_writeSet_convertPixel hk), read_performAll_convertPixel cfg y d _ _ hk,
    performAll_append, chromaReads_run, hcb, hcr]

/-- A command that makes YuvToRgb on disjoint bytes leaves in each covered pixel the word of its own luma byte and its
block's chroma pair, as they were before the command (43 R155, R158, R162 g). -/
theorem exec_yuvToRgb_read {n : Instr} {s t : State} {kind : PixelKind} {y c d : Plane} {w h : Nat} {order : Bool}
    (ha : (launch n s.latch).accesses = yuvToRgb kind y c d w h order) (hp : Started s)
    (hd : Disjoint (launch n s.latch).accesses) (hn : exec n s = .next t) {row col k : Nat} (hrow : row < 2 * (h / 2))
    (hcol : col < 2 * (w / 2)) (hk : k < kind.bytes) :
    t.mem.read (d.at row (col * kind.bytes + k)) =
      byteOf (pixelWord s.config kind (s.mem.read (y.at row col))
        (s.mem.read (c.at (row / 2) (2 * (col / 2) + posA order)))
        (s.mem.read (c.at (row / 2) (2 * (col / 2) + posB order)))) k := by
  have hi : row / 2 < h / 2 := by omega
  have hj : col / 2 < w / 2 := by omega
  have hblock : Disjoint (convertBlock kind y c d order (row / 2) (col / 2)) := by
    rw [ha, yuvToRgb] at hd
    exact disjoint_round hd hi hj
  have hread (work : Work) := read_performAll_convertBlock s.config hblock work s.mem (Nat.mod_lt row two_pos)
    (Nat.mod_lt col two_pos) hk
  have hmem := mem_writeSet_convertBlock (y := y) (c := c) (d := d) (order := order) (i := row / 2) (j := col / 2)
    (Nat.mod_lt row two_pos) (Nat.mod_lt col two_pos) hk
  simp only [Nat.div_add_mod] at hread hmem
  obtain ⟨work, hround⟩ := exec_grid_read ha hp hd hn hi hj hmem
  rw [hround, hread]

/-- RGB8888 makes YuvToRgb from SRC_Y and SRC_C to DST0 (43 R160). -/
theorem launch_rgb8888_accesses (order : Bool) (l : Regs) :
    (launch (.rgb8888 order) l).accesses = yuvToRgb .rgb8888 l.srcY l.srcC l.dst0 l.w l.h order := rfl

/-- Settles O38: RGB8888 makes YuvToRgb with four bytes a pixel. -/
theorem rgb8888PixelsOnDisjointPlanes : Obligations.Rgb8888PixelsOnDisjointPlanes := by
  intro order s t hp hd h r c k hr hc hk
  have hread := exec_yuvToRgb_read (kind := .rgb8888) (launch_rgb8888_accesses order s.latch) hp hd h hr hc hk
  rw [PixelKind.bytes, Nat.mul_comm, posB_eq, posA] at hread
  exact hread

end Sys2Proof.Proofs

/-! ## The format dispatcher -/

namespace Sys2Proof.Proofs

open Sys2Proof.Machine Sys2Proof.Safety Sys2Proof.Laws

/-! ### What a conversion is evaluated to, in the order of its tests (44 R183) -/

theorem launchConvert_err (fmt : Format) (order share : Bool) (l : Regs) :
    launchConvert fmt order share true l = Launch.skip .skipErr := rfl

theorem launchConvert_odd (fmt : Format) (order share : Bool) {l : Regs} (h : l.oddStart = true) :
    launchConvert fmt order share false l = Launch.skip .skipOdd := by
  simp only [launchConvert, h, Bool.false_eq_true, if_false, if_true]

theorem launchConvert_shared {fmt : Format} {order : Bool} {l : Regs} (h : l.oddStart = false)
    (hn : native fmt order = true) : launchConvert fmt order true false l = Launch.skip .skipShared := by
  simp only [launchConvert, h, hn, Bool.and_self, Bool.false_eq_true, if_false, if_true]

/-- No unsupported format is native, so the test for shared storage passes it on. -/
theorem launchConvert_unsupported (order share : Bool) {l : Regs} (h : l.oddStart = false) :
    launchConvert .unsupported order share false l = Launch.skip .skipBadFmt := by
  simp only [launchConvert, h, native, Bool.and_false, Bool.false_eq_true, if_false, if_true]

/-- When every test passes, the conversion makes its format's accesses, and the last band asks for the overlay. -/
theorem launchConvert_ok {fmt : Format} {order share : Bool} {l : Regs} (h : l.oddStart = false)
    (hs : ¬ (share = true ∧ native fmt order = true)) (hf : fmt ≠ .unsupported) :
    launchConvert fmt order share false l = ⟨convertAccesses fmt order share l, .ok, l.lastBand⟩ := by
  simp only [launchConvert, h, Bool.and_eq_true, hs, hf, Bool.false_eq_true, if_false]

/-- The overlay flag goes with outcome OK and the last band, and every skip leaves it 0 (44 R182). -/
theorem launchConvert_overlay_iff (fmt : Format) (order share err : Bool) (l : Regs) :
    (launchConvert fmt order share err l).overlay = true ↔
      (launchConvert fmt order share err l).outcome = .ok ∧ l.lastBand = true := by
  unfold launchConvert
  split_ifs <;> simp [Launch.skip]

/-- A conversion writes nowhere but where its format's accesses write: a skip writes nothing. -/
theorem mem_writeSet_launchConvert {fmt : Format} {order share err : Bool} {l : Regs} {a : Addr}
    (h : a ∈ writeSet (launchConvert fmt order share err l).accesses) :
    a ∈ writeSet (convertAccesses fmt order share l) := by
  unfold launchConvert at h
  split_ifs at h
  case neg => exact h
  all_goals exact absurd h List.not_mem_nil

/-! ### Conversions that skip -/

/-- A started command whose launch is a skip makes no access and ends in IDLE with the outcome in STATUS. -/
theorem exec_skip {i : Instr} {s : State} {code : OutcomeCode} (hp : Started s)
    (hl : launch i s.latch = Launch.skip code) :
    exec i s = .next (endsIdle s s.mem (statusFinished code)) ∧ (launch i s.latch).accesses = [] := by
  have hb : BuffersOwned i s := by
    rw [BuffersOwned, hl]
    exact fun x hx => absurd hx List.not_mem_nil
  rw [exec_started hp hb, hl]
  exact ⟨rfl, rfl⟩

/-- The eight commands of OP 0 (30 R94). -/
def convertCommands (order share err : Bool) : List Instr :=
  [.convertP420 order share err, .convertSpab order share err, .convertSpba order share err,
    .convertRgb565 order share err, .convertRgb8888 order share err, .convertReserved5 order share err,
    .convertReserved6 order share err, .convertReserved7 order share err]

/-- Each of them launches the conversion to its format. -/
theorem launch_of_mem_convertCommands {i : Instr} {order share err : Bool} (h : i ∈ convertCommands order share err) :
    ∃ fmt, ∀ l, launch i l = launchConvert fmt order share err l := by
  simp only [convertCommands, List.mem_cons, List.not_mem_nil, or_false] at h
  rcases h with rfl | rfl | rfl | rfl | rfl | rfl | rfl | rfl <;> exact ⟨_, fun _ => rfl⟩

/-- Settles O25: the test of ERR comes first. -/
theorem upstreamErrorSkips : Obligations.UpstreamErrorSkips := by
  intro order share s hp i hi
  obtain ⟨fmt, hl⟩ := launch_of_mem_convertCommands hi
  exact exec_skip hp ((hl _).trans (launchConvert_err fmt order share _))

/-- Settles O26: the test of the start row comes second. -/
theorem oddStartRowSkips : Obligations.OddStartRowSkips := by
  intro order share s hp hodd i hi
  obtain ⟨fmt, hl⟩ := launch_of_mem_convertCommands hi
  exact exec_skip hp ((hl _).trans (launchConvert_odd fmt order share ((oddStart_iff _).2 hodd)))

/-- Settles O27: A-first is native to SPAB, B-first to SPBA. -/
theorem sharedNativeSkips : Obligations.SharedNativeSkips := by
  intro s hp heven i hi
  simp only [List.mem_cons, List.not_mem_nil, or_false] at hi
  rcases hi with rfl | rfl
  · exact exec_skip (code := .skipShared) hp
      (launchConvert_shared (fmt := .semiPlanarAB) (order := false) (oddStart_of_even heven) rfl)
  · exact exec_skip (code := .skipShared) hp
      (launchConvert_shared (fmt := .semiPlanarBA) (order := true) (oddStart_of_even heven) rfl)

/-- Settles O28: the three commands launch the same conversion. -/
theorem unsupportedFormatSkips : Obligations.UnsupportedFormatSkips := by
  intro order share s hp heven i hi
  have hl : launch i s.latch = launchConvert .unsupported order share false s.latch := by
    simp only [List.mem_cons, List.not_mem_nil, or_false] at hi
    rcases hi with rfl | rfl | rfl <;> rfl
  exact exec_skip hp (hl.trans (launchConvert_unsupported order share (oddStart_of_even heven)))

/-! ### The overlay flag -/

/-- A word of OP 0 launches the conversion to the format its FMT selects (30 R94). -/
theorem launch_decodeConvert (fmt : BitVec 3) (order share err : Bool) (l : Regs) :
    launch (decodeConvert fmt order share err) l = launchConvert (Format.ofBits fmt) order share err l := by
  rw [decodeConvert, Format.ofBits]
  obtain ⟨⟨f, hf⟩⟩ := fmt
  interval_cases f <;> rfl

theorem launch_decode_of_op_zero {w : Word} (h : (cmdOp w).toNat = 0) (l : Regs) :
    launch (decode w) l = launchConvert (Format.ofBits (cmdFmt w)) (cmdOrder w) (cmdShare w) (cmdErr w) l := by
  rw [decode, h]
  exact launch_decodeConvert _ _ _ _ l

/-- Leaf commands and reserved operations never ask for the overlay (30 R98). -/
theorem launch_decode_overlay_of_op_ne_zero {w : Word} (h : (cmdOp w).toNat ≠ 0) (l : Regs) :
    (launch (decode w) l).overlay = false := by
  rw [decode]
  have hlt := (cmdOp w).isLt
  generalize (cmdOp w).toNat = op at *
  interval_cases op
  · exact absurd rfl h
  all_goals rfl

/-- Settles O31: the flag of a conversion is its last band's, and no other command has one. -/
theorem overlayExactlyOnTheLastBand : Obligations.OverlayExactlyOnTheLastBand := by
  intro w l
  have hop : w &&& 0xF = 0 ↔ (cmdOp w).toNat = 0 := by
    rw [← BitVec.toNat_inj, toNat_and_opMask]
    rfl
  have hlast : l.lastBand = true ↔ l.height.toNat ≤ l.startRow.toNat + l.rowCount.toNat := decide_eq_true_iff
  by_cases h0 : (cmdOp w).toNat = 0
  · rw [launch_decode_of_op_zero h0, launchConvert_overlay_iff, hlast, hop]
    exact (and_iff_right h0).symm
  · rw [launch_decode_overlay_of_op_ne_zero h0, hop]
    exact iff_of_false Bool.false_ne_true fun h => h0 h.1

/-! ### Conversions that run -/

/-- The end of BUSY of a conversion with outcome OK is the overlay condition of 44 R182. -/
theorem endBusy_convert (s : State) (m : Memory) :
    endBusy .ok s.latch.lastBand { s with mem := m } = endsConvert s m := by
  rw [endsConvert, endsIdle, ← statusFinished_ok_eq, show (0x05 : Word) = statusRequest from statusRequest_eq.symm]
  simp only [endBusy, Regs.lastBand, decide_eq_true_iff]
  rfl

/-- A started conversion on plain memory that passes every test makes its format's accesses. -/
theorem exec_convert {i : Instr} {fmt : Format} {order share : Bool} {s : State}
    (hl : launch i = launchConvert fmt order share false) (hp : Started s) (hb : BuffersOwned i s)
    (hodd : s.latch.oddStart = false) (hs : ¬ (share = true ∧ native fmt order = true)) (hf : fmt ≠ .unsupported) :
    exec i s = .next (endsConvert s
      (performAll s.config (convertAccesses fmt order share s.latch) (Work.start, s.mem)).2) := by
  rw [exec_started hp hb, hl, launchConvert_ok hodd hs hf, endBusy_convert]

/-- The memory after the luma copy of a window (44 R176, R177). -/
def lumaMemory (share : Bool) (l : Regs) (m : Memory) : Memory :=
  if share then m else copyPlane l.windowY l.window0 l.w l.n m

theorem lumaCopy_runs (cfg : Config) (share : Bool) (l : Regs) (k : Work) (m : Memory) :
    (performAll cfg (lumaCopy share l) (k, m)).2 = lumaMemory share l m := by
  cases share with
  | true => rfl
  | false => exact planeCopy_runs cfg _ _ _ _ k m

/-- The luma copy is complete before the de-interleave begins (44 R176). -/
theorem convertPlanar_runs (cfg : Config) (order share : Bool) (l : Regs) (k : Work) (m : Memory) :
    (performAll cfg (convertPlanar order share l) (k, m)).2 =
      splitPlane l.windowC l.window1 l.window2 l.w l.n order (lumaMemory share l m) := by
  rw [convertPlanar, performAll_append, ← lumaCopy_runs cfg share l k m]
  exact deinterleave_runs cfg _ _ _ _ _ _ _ _

/-- The luma copy is complete before the chroma copy or swap begins (44 R177). -/
theorem convertSemiPlanar_runs (cfg : Config) (isNative share : Bool) (l : Regs) (k : Work) (m : Memory) :
    (performAll cfg (convertSemiPlanar isNative share l) (k, m)).2 =
      if isNative then copyPlane l.windowC l.window1 l.w (l.n / 2) (lumaMemory share l m)
      else swapPlane l.windowC l.window1 l.w l.n (lumaMemory share l m) := by
  rw [convertSemiPlanar, performAll_append, ← lumaCopy_runs cfg share l k m]
  cases isNative with
  | true => exact planeCopy_runs cfg _ _ _ _ _ _
  | false => exact swapPairs_runs cfg _ _ _ _ _ _

/-- Settles O22: a planar format is never native, so SHARE only leaves the luma copy out. -/
theorem convertP420Runs : Obligations.ConvertP420Runs := by
  intro order share s hp hb heven
  refine (exec_convert (fmt := .planar420) rfl hp hb (oddStart_of_even heven) (by simp [native]) (by decide)).trans ?_
  rw [convertAccesses, convertPlanar_runs]
  rfl

/-- Settles O23: SPAB is native A-first, SPBA is native B-first. -/
theorem convertSemiPlanarRuns : Obligations.ConvertSemiPlanarRuns := by
  intro order share s hp heven luma c d
  have hodd := oddStart_of_even heven
  refine ⟨fun hb hs => ?_, fun hb hs => ?_⟩
  · refine (exec_convert (fmt := .semiPlanarAB) rfl hp hb hodd (by simpa [native] using hs) (by decide)).trans ?_
    rw [convertAccesses, convertSemiPlanar_runs]
    cases order <;> rfl
  · refine (exec_convert (fmt := .semiPlanarBA) rfl hp hb hodd (by simpa [native] using hs) (by decide)).trans ?_
    rw [convertAccesses, convertSemiPlanar_runs]
    cases order <;> rfl

/-- Settles O24: a packed format is never native, so SHARE ends neither command. -/
theorem convertPackedRuns : Obligations.ConvertPackedRuns := by
  intro order share s hp heven
  have hodd := oddStart_of_even heven
  refine ⟨fun hb => ?_, fun hb => ?_⟩
  · refine (exec_convert (fmt := .rgb565) rfl hp hb hodd (by simp [native]) (by decide)).trans ?_
    rw [convertAccesses, convertPacked, yuvToRgb_runs]
    rfl
  · refine (exec_convert (fmt := .rgb8888) rfl hp hb hodd (by simp [native]) (by decide)).trans ?_
    rw [convertAccesses, convertPacked, yuvToRgb_runs]
    rfl

/-! ### The footprint of a conversion, in rows of the frame -/

/-- The luma copy writes the window's rows of plane 0, and nothing when luma storage is shared. -/
theorem mem_writeSet_lumaCopy {share : Bool} {l : Regs} {a : Addr} (h : a ∈ writeSet (lumaCopy share l)) :
    share = false ∧ ∃ r c, r < l.n ∧ c < l.w ∧ a = l.dst0.at (l.s + r) c := by
  cases share with
  | true => exact absurd h List.not_mem_nil
  | false =>
    obtain ⟨r, c, hr, hc, rfl⟩ := mem_writeSet_planeCopy h
    exact ⟨rfl, r, c, hr, hc, advance_at _ _ _ _⟩

/-- The chroma operation of a semi-planar conversion writes the window's chroma rows of plane 1: all of WIDTH when it
copies, whole pairs when it swaps (44 R185). -/
theorem mem_writeSet_convertSemiPlanar {isNative share : Bool} {l : Regs} {a : Addr}
    (h : a ∈ writeSet (convertSemiPlanar isNative share l)) :
    a ∈ writeSet (lumaCopy share l) ∨
      ∃ i c, i < l.n / 2 ∧ c < (if isNative = true then l.w else 2 * (l.w / 2)) ∧ a = l.dst1.at (l.s / 2 + i) c := by
  rw [convertSemiPlanar, writeSet_append] at h
  refine (List.mem_append.1 h).imp id fun h => ?_
  cases isNative with
  | true =>
    obtain ⟨i, c, hi, hc, rfl⟩ := mem_writeSet_planeCopy h
    exact ⟨i, c, hi, hc, advance_at _ _ _ _⟩
  | false =>
    obtain ⟨i, c, hi, hc, rfl⟩ := mem_writeSet_swapPairs h
    exact ⟨i, c, hi, hc, advance_at _ _ _ _⟩

/-- A planar conversion writes, after the luma, the window's chroma rows of planes 1 and 2 (44 R184). -/
theorem mem_writeSet_convertPlanar {order share : Bool} {l : Regs} {a : Addr}
    (h : a ∈ writeSet (convertPlanar order share l)) :
    a ∈ writeSet (lumaCopy share l) ∨
      ∃ i j, i < l.n / 2 ∧ j < l.w / 2 ∧ (a = l.dst1.at (l.s / 2 + i) j ∨ a = l.dst2.at (l.s / 2 + i) j) := by
  rw [convertPlanar, writeSet_append] at h
  refine (List.mem_append.1 h).imp id fun h => ?_
  obtain ⟨i, j, hi, hj, ha⟩ := mem_writeSet_deinterleave h
  exact ⟨i, j, hi, hj, by simpa only [Regs.window1, Regs.window2, Regs.cs, advance_at] using ha⟩

/-- A packed conversion writes whole blocks of the window's rows of plane 0 (44 R187, R188). -/
theorem mem_writeSet_convertPacked {kind : PixelKind} {order : Bool} {l : Regs} {a : Addr}
    (h : a ∈ writeSet (convertPacked kind order l)) :
    ∃ r c, r < 2 * (l.n / 2) ∧ c < 2 * kind.bytes * (l.w / 2) ∧ a = l.dst0.at (l.s + r) c := by
  obtain ⟨r, c, hr, hc, rfl⟩ := mem_writeSet_yuvToRgb h
  rw [Nat.mul_right_comm] at hc
  exact ⟨r, c, hr, hc, advance_at _ _ _ _⟩

/-- A started conversion leaves every byte outside its format's accesses alone, however it ends. -/
theorem exec_convert_read {i : Instr} {fmt : Format} {order share err : Bool} {s t : State}
    (hl : launch i = launchConvert fmt order share err) (hp : Started s) (h : exec i s = .next t) {a : Addr}
    (ha : a ∉ writeSet (convertAccesses fmt order share s.latch)) : t.mem.read a = s.mem.read a :=
  exec_started_read_of_not_mem hp h fun hm => ha (mem_writeSet_launchConvert (hl ▸ hm))

/-- Settles O33: each conversion's write set lies in its window. -/
theorem convertFootprint : Obligations.ConvertFootprint := by
  intro order share err s t a hp l luma
  have hluma (hout : luma) : a ∉ writeSet (lumaCopy share l) := fun hm => by
    obtain ⟨hs, r, c, hr, hc, ha⟩ := mem_writeSet_lumaCopy hm
    exact hout hs r c hr hc ha
  have hsemi {isNative : Bool} (hout : luma)
      (hchroma : ∀ i c, i < l.n / 2 → c < (if isNative = true then l.w else 2 * (l.w / 2)) →
        a ≠ l.dst1.at (l.s / 2 + i) c) : a ∉ writeSet (convertSemiPlanar isNative share l) := fun hm => by
    rcases mem_writeSet_convertSemiPlanar hm with hm | ⟨i, c, hi, hc, ha⟩
    · exact hluma hout hm
    · exact hchroma i c hi hc ha
  refine ⟨fun h hout hchroma => ?p420, fun h hout hchroma => ?spab, fun h hout hchroma => ?spba,
    fun h hout => ?rgb565, fun h hout => ?rgb8888⟩
  case p420 =>
    refine exec_convert_read (fmt := .planar420) rfl hp h fun hm => ?_
    rcases mem_writeSet_convertPlanar hm with hm | ⟨i, j, hi, hj, ha⟩
    · exact hluma hout hm
    · exact ha.elim (hchroma i j hi hj).1 (hchroma i j hi hj).2
  case spab =>
    refine exec_convert_read (fmt := .semiPlanarAB) rfl hp h (hsemi hout ?_)
    simpa [native] using hchroma
  case spba =>
    exact exec_convert_read (fmt := .semiPlanarBA) rfl hp h (hsemi hout hchroma)
  case rgb565 =>
    refine exec_convert_read (fmt := .rgb565) rfl hp h fun hm => ?_
    obtain ⟨r, c, hr, hc, ha⟩ := mem_writeSet_convertPacked hm
    exact hout r c hr hc ha
  case rgb8888 =>
    refine exec_convert_read (fmt := .rgb8888) rfl hp h fun hm => ?_
    obtain ⟨r, c, hr, hc, ha⟩ := mem_writeSet_convertPacked hm
    exact hout r c hr hc ha

/-! ### Bands (44 R189) -/

theorem advance_advance (p : Plane) (m n : Nat) : (p.advance m).advance n = p.advance (m + n) := by
  simp only [Plane.advance, BitVec.ofNat_add, BitVec.add_mul, BitVec.add_assoc]

/-- On planes advanced by an even number of rows, block row `i` is a later block row of the planes themselves. -/
theorem convertBlock_advance (kind : PixelKind) (y c d : Plane) (order : Bool) (n i j : Nat) :
    convertBlock kind (y.advance (2 * n)) (c.advance n) (d.advance (2 * n)) order i j =
      convertBlock kind y c d order (n + i) j := by
  simp only [convertBlock, convertPixel, advance_at, Nat.mul_add, Nat.add_assoc]

/-- YuvToRgb of a band and then of the rows below it is YuvToRgb of all of them. -/
theorem yuvToRgb_add (kind : PixelKind) (y c d : Plane) (w n b : Nat) (order : Bool) :
    yuvToRgb kind y c d w (2 * n + b) order =
      yuvToRgb kind y c d w (2 * n) order ++
        yuvToRgb kind (y.advance (2 * n)) (c.advance n) (d.advance (2 * n)) w b order := by
  have hrows : (2 * n + b) / 2 = 2 * n / 2 + b / 2 := by omega
  have hn : 2 * n / 2 = n := by omega
  have hblock : convertBlock kind (y.advance (2 * n)) (c.advance n) (d.advance (2 * n)) order =
      fun i => convertBlock kind y c d order (n + i) :=
    funext fun i => funext fun j => convertBlock_advance kind y c d order n i j
  rw [yuvToRgb, hrows, grid_add, hn, yuvToRgb, hn, yuvToRgb, hblock]

/-- The registers of a window's first `a` rows. -/
def firstBand (l : Regs) (a : Nat) : Regs := { l with rowCount := BitVec.ofNat 32 a }

/-- The registers of the `b` rows after a window's first `a`. -/
def secondBand (l : Regs) (a b : Nat) : Regs :=
  { l with startRow := l.startRow + BitVec.ofNat 32 a, rowCount := BitVec.ofNat 32 b }

theorem firstBand_n (l : Regs) {a : Nat} (h : a < 2 ^ 32) : (firstBand l a).n = a :=
  (BitVec.toNat_ofNat a 32).trans (Nat.mod_eq_of_lt h)

theorem secondBand_n (l : Regs) (a : Nat) {b : Nat} (h : b < 2 ^ 32) : (secondBand l a b).n = b :=
  (BitVec.toNat_ofNat b 32).trans (Nat.mod_eq_of_lt h)

/-- Without a wrap the second band starts `a` rows further down. -/
theorem secondBand_s {l : Regs} {a : Nat} (b : Nat) (h : l.s + a < 2 ^ 32) : (secondBand l a b).s = l.s + a := by
  rw [Regs.s] at h
  simp only [Regs.s, secondBand, BitVec.toNat_add, BitVec.toNat_ofNat, Nat.add_mod_mod, Nat.mod_eq_of_lt h]

/-- A packed window is its first rows, an even number of them, and then the rest. -/
theorem convertPacked_bands {kind : PixelKind} {order : Bool} {l : Regs} {a b : Nat} (ha : a % 2 = 0)
    (hwrap : l.s + a < 2 ^ 32) (hn : l.n = a + b) :
    convertPacked kind order l =
      convertPacked kind order (firstBand l a) ++ convertPacked kind order (secondBand l a b) := by
  have hlt : l.n < 2 ^ 32 := l.rowCount.isLt
  obtain ⟨k, rfl⟩ : ∃ k, a = 2 * k := ⟨a / 2, by omega⟩
  have hcs : (l.s + 2 * k) / 2 = l.s / 2 + k := by omega
  have hfirst : (firstBand l (2 * k)).n = 2 * k := firstBand_n l (by omega)
  have hsecond : (secondBand l (2 * k) b).n = b := secondBand_n l _ (by omega)
  rw [convertPacked, hn, yuvToRgb_add]
  simp only [convertPacked, hfirst, hsecond, Regs.windowY, Regs.windowC, Regs.window0, Regs.cs, secondBand_s b hwrap,
    hcs, advance_advance]
  rfl

/-- YuvToRgb starts on the memory its predecessors left; their working bytes do not matter. -/
theorem performAll_append_yuvToRgb (cfg : Config) (xs : List Access) {kind : PixelKind} {y c d : Plane} {w h : Nat}
    {order : Bool} (k k' : Work) (m : Memory) :
    (performAll cfg (xs ++ yuvToRgb kind y c d w h order) (k, m)).2 =
      (performAll cfg (yuvToRgb kind y c d w h order) (k', (performAll cfg xs (k, m)).2)).2 := by
  rw [performAll_append, yuvToRgb_runs]
  exact (yuvToRgb_runs cfg _ _ _ _ _ _ _ _ _).symm

/-- A command that converts packed pixels on even start rows: its two bands, the second on the memory of the first,
leave the memory of the whole window. -/
theorem mem_of_bands {i : Instr} {kind : PixelKind} {order : Bool}
    (hl : ∀ l : Regs, l.oddStart = false → (launch i l).accesses = convertPacked kind order l) {s t u v : State}
    {a b : Nat} (heven : s.latch.startRow.toNat % 2 = 0) (ha : a % 2 = 0) (hwrap : s.latch.startRow.toNat + a < 2 ^ 32)
    (hn : s.latch.rowCount.toNat = a + b) (hp : Started s) (ht : exec i s = .next t)
    (hu : exec i { s with latch := firstBand s.latch a } = .next u)
    (hv : exec i { s with mem := u.mem, latch := secondBand s.latch a b } = .next v) : v.mem = t.mem := by
  have hsecond : (secondBand s.latch a b).oddStart = false := by
    refine oddStart_of_even ?_
    have hs : (secondBand s.latch a b).startRow.toNat = s.latch.startRow.toNat + a := secondBand_s b hwrap
    omega
  have hodd := oddStart_of_even heven
  rw [exec_started_mem (by exact hp) hv, exec_started_mem (by exact hp) hu, exec_started_mem hp ht]
  simp only [hl _ hodd, hl _ hsecond, hl (firstBand s.latch a) hodd]
  rw [convertPacked_bands ha hwrap hn]
  exact (performAll_append_yuvToRgb s.config _ _ _ _).symm

/-- Settles O41: a packed conversion on an even start row without ERR makes YuvToRgb, whatever SHARE is. -/
theorem packedBandsTileTheWindow : Obligations.PackedBandsTileTheWindow := by
  intro order share s a b heven ha hwrap hn hp first second
  refine ⟨fun t u v ht hu hv => ?_, fun t u v ht hu hv => ?_⟩
  · refine mem_of_bands (kind := .rgb565) (order := order) (fun l hodd => ?_) heven ha hwrap hn hp ht hu hv
    exact congrArg Launch.accesses (launchConvert_ok (fmt := .rgb565) hodd (by simp [native]) (by decide))
  · refine mem_of_bands (kind := .rgb8888) (order := order) (fun l hodd => ?_) heven ha hwrap hn hp ht hu hv
    exact congrArg Launch.accesses (launchConvert_ok (fmt := .rgb8888) hodd (by simp [native]) (by decide))

end Sys2Proof.Proofs

/-! ## Exceptions -/

namespace Sys2Proof.Proofs

open Sys2Proof.Machine Sys2Proof.Safety Sys2Proof.Laws

/-! ### Reserved operations -/

/-- The commands of OP 6 to 15 (30 R92). -/
def reservedOperations : List Instr :=
  [.reservedOp6, .reservedOp7, .reservedOp8, .reservedOp9, .reservedOp10, .reservedOp11, .reservedOp12, .reservedOp13,
    .reservedOp14, .reservedOp15]

/-- `decode` looks at OP alone, and each OP from 6 on names one of them. -/
theorem decode_mem_reservedOperations {w : Word} (h : 6 ≤ (cmdOp w).toNat) : decode w ∈ reservedOperations := by
  rw [decode]
  have hlt := (cmdOp w).isLt
  generalize (cmdOp w).toNat = op at *
  interval_cases op <;> simp [reservedOperations]

theorem launch_of_mem_reservedOperations {i : Instr} (h : i ∈ reservedOperations) (l : Regs) :
    launch i l = launchBadOp := by
  simp only [reservedOperations, List.mem_cons, List.not_mem_nil, or_false] at h
  rcases h with rfl | rfl | rfl | rfl | rfl | rfl | rfl | rfl | rfl | rfl <;> rfl

/-- Settles O29: OP alone selects a reserved operation, and its launch is the skip SKIP_BADOP. -/
theorem reservedOperationSkips : Obligations.ReservedOperationSkips := by
  refine ⟨fun w hop => decode_mem_reservedOperations ?_, fun s hp i hi =>
    exec_skip hp (launch_of_mem_reservedOperations hi s.latch)⟩
  rw [← toNat_and_opMask]
  exact BitVec.le_def.1 hop

/-! ### Waiting for the acknowledge -/

/-- In OVLWAIT with `ovl_ack` = 0 neither an engine step nor a register write changes anything (60 R214). -/
theorem step_ovlWait_stays {s : State} {e : Event} {es : List Event} (ho : s.phase = .ovlWait)
    (hack : s.ovlAck = false) (he : s.env = e :: es) (h : e = .engine ∨ ∃ r v, e = wr r v) :
    step s = .next { s.tick with env := es } := by
  have hidle : s.phase ≠ .idle := ho ▸ nofun
  have hbusy : s.phase ≠ .busy := ho ▸ nofun
  obtain rfl | ⟨r, v, rfl⟩ := h
  · have hunobserved : ¬ (s.resetPin = false ∧ s.phase = .ovlWait ∧ s.ovlAck = true) := by simp [hack]
    rw [step_engine he, engineStep_eq_engineRun (by exact hbusy), engineRun_not_busy (by exact hbusy),
      if_neg (by exact hunobserved)]
  · rw [step_wr he, writeReg_not_idle r v (by exact hidle)]

/-- So a run of them does no more than consume them and advance the counter, `reset` asserted or not. -/
theorem run_ovlWait_stays {s : State} (acts : List Event) (ho : s.phase = .ovlWait) (hack : s.ovlAck = false)
    (he : s.env = acts) (hacts : ∀ e ∈ acts, e = .engine ∨ ∃ r v, e = wr r v) :
    core.run acts.length s = .next { s with env := [], freeCount := s.freeCount + acts.length } := by
  induction acts generalizing s with
  | nil =>
    rw [List.length_nil, run_zero, ← he]
    rfl
  | cons e es ih =>
    rw [List.forall_mem_cons] at hacts
    obtain ⟨hfirst, hrest⟩ := hacts
    rw [List.length_cons, run_next _ (step_ovlWait_stays ho hack he hfirst),
      ih (s := { s.tick with env := es }) ho hack rfl hrest]
    rw [Nat.add_comm es.length, ← Nat.add_assoc]
    rfl

/-- Settles O50. -/
theorem waitsForEverWithoutAcknowledge : Obligations.WaitsForEverWithoutAcknowledge :=
  fun _ acts ho _ hack he hacts => run_ovlWait_stays acts ho hack he hacts

end Sys2Proof.Proofs

/-! ## Reset, and how IDLE is left -/

namespace Sys2Proof.Proofs

open Sys2Proof.Machine Sys2Proof.Safety Sys2Proof.Laws

/-- Driving the input `reset`, taken as an action. -/
theorem step_reset {s : State} {b : Bool} {es : List Event} (h : s.env = .reset b :: es) :
    step s = .next (driveReset b { s.tick with env := es }) := step_action h

/-- While `reset` is held the engine does nothing, by a single step (70 R230). -/
theorem engineStep_held {s : State} (h : s.resetPin = true) : engineStep s = .next s := by
  rw [engineStep, if_pos h]

/-- Nor does it when it runs alone. -/
theorem engineRun_held {s : State} (h : s.resetPin = true) : engineRun s = .next s := by
  rw [engineRun, if_pos h]

/-- At the reset value of STATUS neither `done` nor `ovl_req` is asserted (10 R43). -/
theorem outputs_of_status_zero {s : State} (h : s.status = 0) : s.done = false ∧ s.ovlReq = false := by
  simp [State.done, State.ovlReq, h]

/-- Settles O8: asserting `reset` is `enterReset`; held, register writes and the engine are each left without effect. -/
theorem resetAbortsAndHolds : Obligations.ResetAbortsAndHolds := by
  intro s
  refine ⟨fun es he => ?_, fun hr => ⟨fun r v es he => ?_, fun es he => ?_, fun he => ?_⟩⟩
  · obtain ⟨hdone, hreq⟩ := outputs_of_status_zero (s := driveReset true { s.tick with env := es }) rfl
    exact ⟨_, step_reset he, rfl, rfl, rfl, rfl, hdone, hreq, rfl, rfl, rfl, rfl⟩
  · rw [step_wr he, writeReg_held r v (by exact hr)]
  · rw [step_engine he, engineStep_held (by exact hr)]
  · rw [step_alone he, engineRun_held (by exact hr)]

/-- Engine steps, at most as many as accesses are left, and then reset: of the command only the memory its next
accesses left is still there, since reset clears the latch and the progress. -/
theorem run_engine_then_reset {s : State} {k : Nat} (hb : s.phase = .busy) (hr : s.resetPin = false)
    (ha : (s.current (launch s.command s.latch)).admitted s.config = true)
    (hk : k ≤ (s.current (launch s.command s.latch)).pending.length)
    (he : s.env = List.replicate k .engine ++ [.reset true]) :
    core.run (k + 1) s = .next (driveReset true
      { s with env := [], freeCount := s.freeCount + (k + 1)
               mem := (performAll s.config ((s.current (launch s.command s.latch)).pending.take k)
                 ((s.current (launch s.command s.latch)).work, s.mem)).2 }) := by
  induction k generalizing s with
  | zero => exact (run_next 0 (step_reset he)).trans (run_zero _)
  | succ k ih =>
    cases hx : (s.current (launch s.command s.latch)).pending with
    | nil => simp [hx] at hk
    | cons x xs =>
      have hrest : ∀ y ∈ xs, backed s.config y.addr = true := fun y hy =>
        (admitted_iff _ _).1 ha y (hx ▸ List.mem_cons_of_mem x hy)
      have hlen : k ≤ xs.length := by simpa [hx] using hk
      rw [run_next _ ((step_engine_busy he hb hr).trans (stepCommand_access (by exact ha) (by exact hx))),
        ih (by exact hb) (by exact hr) ((admitted_iff _ _).2 (by exact hrest)) (by exact hlen) rfl]
      have hcount : s.freeCount + 1 + (k + 1) = s.freeCount + (k + 1 + 1) := by omega
      rw [← hcount]
      rfl

/-- Settles O9: a started command has all its accesses left. -/
theorem resetKeepsAPrefixOfTheAccesses : Obligations.ResetKeepsAPrefixOfTheAccesses := by
  intro s k hb hr hp hbacked hk he
  have hrun := run_engine_then_reset (k := k) hb hr
  rw [current_started _ hp] at hrun
  exact ⟨_, hrun ((admitted_iff _ _).2 hbacked) hk he, rfl, rfl, rfl, rfl, rfl⟩

/-! ### Only START leaves IDLE -/

/-- Settles O58: of the changes a step can make from IDLE, only START ends in another phase. -/
theorem onlyStartLeavesIdle : Obligations.OnlyStartLeavesIdle := by
  intro s t hi hst hne
  have notBusy : s.phase ≠ .busy := hi ▸ nofun
  cases step_change hst with
  | quiet he _ => exact absurd (he.phase.trans hi) hne
  | otherWrite _ _ _ _ _ he _ => exact absurd (he.phase.trans hi) hne
  | regWrite _ _ _ _ _ _ _ ht => exact absurd (ht ▸ hi) hne
  | start v es he _ hr hv ht => exact ⟨ht ▸ rfl, hr, v, es, he, hv⟩
  | access hb _ _ _ _ _ => exact absurd hb notBusy
  | finish hb _ _ _ _ => exact absurd hb notBusy
  | ack ho _ _ _ _ _ _ => exact absurd (hi.symm.trans ho) nofun
  | reset b _ _ ht =>
    cases b with
    | true => exact absurd (ht ▸ rfl) hne
    | false => exact absurd (ht ▸ hi) hne

end Sys2Proof.Proofs

/-! ## How many accesses a command makes -/

namespace Sys2Proof.Proofs

open Sys2Proof.Machine Sys2Proof.Safety Sys2Proof.Laws

/-- The 2 by 2 blocks of a frame cover no more than the frame. -/
theorem four_mul_blocks_le (w h : Nat) : h / 2 * (w / 2) * 4 ≤ w * h :=
  calc h / 2 * (w / 2) * 4 = 2 * (w / 2) * (2 * (h / 2)) := by ring
    _ ≤ w * h := Nat.mul_le_mul (Nat.mul_div_le w 2) (Nat.mul_div_le h 2)

/-! ### The leaf operations -/

theorem length_planeCopy (src dst : Plane) (w h : Nat) : (planeCopy src dst w h).length = h * w * 2 :=
  length_grid (f := copyByte src dst) fun _ _ => rfl

theorem length_deinterleave (src dA dB : Plane) (w h : Nat) (order : Bool) :
    (deinterleave src dA dB w h order).length = h / 2 * (w / 2) * 4 :=
  length_grid (f := splitPair src dA dB order) fun _ _ => rfl

theorem length_swapPairs (src dst : Plane) (w h : Nat) : (swapPairs src dst w h).length = h / 2 * (w / 2) * 4 :=
  length_grid (f := swapPair src dst) fun _ _ => rfl

/-- A pixel is one luma read and its bytes' stores. -/
theorem length_convertPixel (kind : PixelKind) (y d : Plane) (row col : Nat) :
    (convertPixel kind y d row col).length = kind.bytes + 1 := by
  simp [convertPixel, storePixel]

/-- A block is two chroma reads and four pixels. -/
theorem length_convertBlock (kind : PixelKind) (y c d : Plane) (order : Bool) (i j : Nat) :
    (convertBlock kind y c d order i j).length = 2 + 4 * (kind.bytes + 1) := by
  simp only [convertBlock, List.length_append, length_convertPixel, List.length_cons, List.length_nil]
  omega

theorem length_yuvToRgb (kind : PixelKind) (y c d : Plane) (w h : Nat) (order : Bool) :
    (yuvToRgb kind y c d w h order).length = h / 2 * (w / 2) * (2 + 4 * (kind.bytes + 1)) :=
  length_grid fun _ _ => length_convertBlock kind y c d order _ _

/-! ### In terms of the frame -/

theorem length_planeCopy_le (src dst : Plane) (w h : Nat) : (planeCopy src dst w h).length ≤ 2 * (w * h) := by
  rw [length_planeCopy, Nat.mul_comm h w, Nat.mul_comm]

theorem length_deinterleave_le (src dA dB : Plane) (w h : Nat) (order : Bool) :
    (deinterleave src dA dB w h order).length ≤ w * h :=
  (length_deinterleave src dA dB w h order).trans_le (four_mul_blocks_le w h)

theorem length_swapPairs_le (src dst : Plane) (w h : Nat) : (swapPairs src dst w h).length ≤ w * h :=
  (length_swapPairs src dst w h).trans_le (four_mul_blocks_le w h)

/-- A block has at most 22 accesses, so at most 24 for its four pixels. -/
theorem length_yuvToRgb_le (kind : PixelKind) (y c d : Plane) (w h : Nat) (order : Bool) :
    (yuvToRgb kind y c d w h order).length ≤ 6 * (w * h) := by
  have hblocks := four_mul_blocks_le w h
  have hbytes : 2 + 4 * (kind.bytes + 1) ≤ 24 := by cases kind <;> decide
  calc (yuvToRgb kind y c d w h order).length = h / 2 * (w / 2) * (2 + 4 * (kind.bytes + 1)) := length_yuvToRgb ..
    _ ≤ h / 2 * (w / 2) * 24 := Nat.mul_le_mul_left _ hbytes
    _ ≤ 6 * (w * h) := by omega

/-! ### The commands -/

theorem length_lumaCopy_le (share : Bool) (l : Regs) : (lumaCopy share l).length ≤ 2 * (l.w * l.n) := by
  cases share with
  | true => exact Nat.zero_le _
  | false => exact length_planeCopy_le ..

theorem length_convertPlanar_le (order share : Bool) (l : Regs) :
    (convertPlanar order share l).length ≤ 3 * (l.w * l.n) := by
  have hluma := length_lumaCopy_le share l
  have hchroma := length_deinterleave_le l.windowC l.window1 l.window2 l.w l.n order
  rw [convertPlanar, List.length_append]
  omega

theorem length_convertSemiPlanar_le (isNative share : Bool) (l : Regs) :
    (convertSemiPlanar isNative share l).length ≤ 3 * (l.w * l.n) := by
  have hluma := length_lumaCopy_le share l
  rw [convertSemiPlanar, List.length_append]
  cases isNative with
  | false =>
    have hchroma := length_swapPairs_le l.windowC l.window1 l.w l.n
    simp only [Bool.false_eq_true, if_false]
    omega
  | true =>
    have hchroma := length_planeCopy l.windowC l.window1 l.w (l.n / 2)
    have hhalf : l.n / 2 * l.w * 2 ≤ l.w * l.n :=
      calc l.n / 2 * l.w * 2 = l.w * (2 * (l.n / 2)) := by ring
        _ ≤ l.w * l.n := Nat.mul_le_mul_left _ (Nat.mul_div_le l.n 2)
    simp only [if_true]
    omega

theorem length_convertAccesses_le (fmt : Format) (order share : Bool) (l : Regs) :
    (convertAccesses fmt order share l).length ≤ 6 * (l.w * l.n) := by
  cases fmt with
  | planar420 => exact (length_convertPlanar_le order share l).trans (by omega)
  | semiPlanarAB | semiPlanarBA => exact (length_convertSemiPlanar_le _ share l).trans (by omega)
  | rgb565 | rgb8888 => exact length_yuvToRgb_le ..
  | unsupported => exact Nat.zero_le _

/-- A conversion makes its format's accesses or, when it skips, none. -/
theorem length_launchConvert_le (fmt : Format) (order share err : Bool) (l : Regs) :
    (launchConvert fmt order share err l).accesses.length ≤ 6 * (l.w * l.n) := by
  unfold launchConvert
  split_ifs
  case neg => exact length_convertAccesses_le fmt order share l
  all_goals exact Nat.zero_le _

/-- The other commands are one leaf operation on the frame, or make no access. -/
theorem length_launch_decode_le_of_op_ne_zero {w : Word} (h : (cmdOp w).toNat ≠ 0) (l : Regs) :
    (launch (decode w) l).accesses.length ≤ 6 * (l.w * l.h) := by
  rw [decode]
  have hlt := (cmdOp w).isLt
  generalize (cmdOp w).toNat = op at *
  interval_cases op
  · exact absurd rfl h
  · exact (length_planeCopy_le ..).trans (by omega)
  · exact (length_deinterleave_le ..).trans (by omega)
  · exact (length_swapPairs_le ..).trans (by omega)
  · exact length_yuvToRgb_le ..
  · exact length_yuvToRgb_le ..
  all_goals exact Nat.zero_le _

/-- The mask of OP tells whether OP is 0. -/
theorem and_opMask_eq_zero_iff (w : Word) : w &&& 0xF = 0 ↔ (cmdOp w).toNat = 0 := by
  rw [← BitVec.toNat_inj, toNat_and_opMask]
  rfl

/-- Settles O34: conversions work on ROW_COUNT rows, every other command on HEIGHT rows. -/
theorem commandAccessesAreBounded : Obligations.CommandAccessesAreBounded := by
  intro w l
  simp only [and_opMask_eq_zero_iff, Nat.mul_assoc]
  split_ifs with h0
  · rw [launch_decode_of_op_zero h0]
    exact length_launchConvert_le _ _ _ _ l
  · exact length_launch_decode_le_of_op_ne_zero h0 l

end Sys2Proof.Proofs
